-- ==== Sys2Proof/Word.lean ====
section
/-! DEFINITION. The unit of storage: one register and one memory cell are each 8 bits wide (R5: XLEN = CELLW = 8). -/

namespace Sys2Proof

/-- A register value, a memory cell, an opcode or an operand cell: 8 bits, always read as unsigned (R5, R8). -/
abbrev Byte := BitVec 8

end Sys2Proof
end

