-- ==== Sys2Proof/Config.lean ====
section
/-! DEFINITION. What is fixed for a whole run: the configuration of R6 and the opcode map of R86, as plain data.
The numbers (the default map, the two named configurations) and the check that a configuration is legal stand in
Decode.lean. No value of this hardware is left free, so this file holds no opaque constant. -/

namespace Sys2Proof

/-- The 15 instructions by name, in the order of the source's handler table (R11, R86). -/
inductive Mnemonic where
  | hlt | ldi | prn | pra | add | mul | push | pop | call | ret | cmp | jmp | jeq | jne | st
  deriving DecidableEq, Repr

/-- The opcode map: one 8-bit opcode value per mnemonic. R86: "A model should take the map as a parameter whose
default is this table". -/
structure OpcodeMap where
  hlt : Byte
  ldi : Byte
  prn : Byte
  pra : Byte
  add : Byte
  mul : Byte
  push : Byte
  pop : Byte
  call : Byte
  ret : Byte
  cmp : Byte
  jmp : Byte
  jeq : Byte
  jne : Byte
  st : Byte
  deriving DecidableEq, Repr

/-- A configuration: the triple of R6 and the opcode map of R86. -/
structure Config where
  /-- `MEMSIZE`: the number of memory cells. -/
  memSize : Nat
  /-- `ENABLED`: the mnemonics registered in the dispatch table; only membership matters. -/
  enabled : List Mnemonic
  /-- `SP_RESET`: the value of register 7 after reset. -/
  spReset : Byte
  /-- `OPCODE_MAP`. -/
  opcodeMap : OpcodeMap
  deriving DecidableEq, Repr

end Sys2Proof
end

