-- ==== Sys2Proof/Syntax.lean ====
section
/-! DEFINITION. The instruction set as syntax: one constructor per row of spec/opcode_table.json (R86), in its order.
An operand is the WHOLE fetched cell (R83, R85): a cell that names no register is still decoded, and it is the
instruction's own check that stops on it (R24, R89), so an operand is a `Byte` and not a register number. -/

namespace Sys2Proof

/-- One decoded instruction with the operand cells its format names (R84). -/
inductive Instr where
  /-- HLT, format N (R131). -/
  | hlt
  /-- LDI register a, immediate b, format RI (R141). -/
  | ldi (a b : Byte)
  /-- PRN register a, format R (R132). -/
  | prn (a : Byte)
  /-- PRA register a, format R (R133). -/
  | pra (a : Byte)
  /-- ADD registers a, b, format RR (R152). -/
  | add (a b : Byte)
  /-- MUL registers a, b, format RR (R153). -/
  | mul (a b : Byte)
  /-- PUSH register a, format R (R166). -/
  | push (a : Byte)
  /-- POP register a, format R (R167). -/
  | pop (a : Byte)
  /-- CALL register a, format R (R176). -/
  | call (a : Byte)
  /-- RET, format N (R177). -/
  | ret
  /-- CMP registers a, b, format RR (R154). -/
  | cmp (a b : Byte)
  /-- JMP register a, format R (R178). -/
  | jmp (a : Byte)
  /-- JEQ register a, format R (R179). -/
  | jeq (a : Byte)
  /-- JNE register a, format R (R180). -/
  | jne (a : Byte)
  /-- ST address register a, value register b, format RR (R142). -/
  | st (a b : Byte)
  deriving DecidableEq, Repr

end Sys2Proof
end

