-- ==== Sys2Proof/WellFormed.lean ====
section
/-! DEFINITION. When an instruction is well formed: every operand cell its format uses as a register index names one
of the 8 registers (R83, R84). LDI's second operand is an immediate, of which every value is legal (R89). -/

namespace Sys2Proof

/-- The operand cells that are register indices, first operand first: the last column of R84's table. -/
def Instr.regOperands : Instr → List Byte
  | .hlt => []
  | .ldi a _ => [a]
  | .prn a => [a]
  | .pra a => [a]
  | .add a b => [a, b]
  | .mul a b => [a, b]
  | .push a => [a]
  | .pop a => [a]
  | .call a => [a]
  | .ret => []
  | .cmp a b => [a, b]
  | .jmp a => [a]
  | .jeq a => [a]
  | .jne a => [a]
  | .st a b => [a, b]

/-- Every register operand is 0 to 7 (R24, R83). -/
def WellFormed (i : Instr) : Bool :=
  i.regOperands.all fun k => decide (k.toNat < 8)

end Sys2Proof
end

