-- ==== Sys2Proof/Decode.lean ====
section
/-! DEFINITION. The opcode map's numbers, legal configurations, the dispatch lookup, the decoder, and after it the
encoder (30_encoding.md R80 to R95; 00_scope.md R6, R7). -/

namespace Sys2Proof

/-- All 15 mnemonics, in the order of R86's table. -/
def Mnemonic.all : List Mnemonic :=
  [.hlt, .ldi, .prn, .pra, .add, .mul, .push, .pop, .call, .ret, .cmp, .jmp, .jeq, .jne, .st]

/-- The operand count of each instruction's format: N 0, R 1, RR and RI 2 (R83, R84). -/
def Mnemonic.operandCount : Mnemonic → Nat
  | .hlt => 0
  | .ldi => 2
  | .prn => 1
  | .pra => 1
  | .add => 2
  | .mul => 2
  | .push => 1
  | .pop => 1
  | .call => 1
  | .ret => 0
  | .cmp => 2
  | .jmp => 1
  | .jeq => 1
  | .jne => 1
  | .st => 2

/-- `PCSET`: the five instructions that write the program counter themselves and suppress the auto-advance, by name
and not by a bit of the opcode (R115, R87). -/
def Mnemonic.pcSet : Mnemonic → Bool
  | .call => true
  | .ret => true
  | .jmp => true
  | .jeq => true
  | .jne => true
  | .hlt => false
  | .ldi => false
  | .prn => false
  | .pra => false
  | .add => false
  | .mul => false
  | .push => false
  | .pop => false
  | .cmp => false
  | .st => false

/-- The opcode value the map gives a mnemonic (R86). -/
def OpcodeMap.value (map : OpcodeMap) : Mnemonic → Byte
  | .hlt => map.hlt
  | .ldi => map.ldi
  | .prn => map.prn
  | .pra => map.pra
  | .add => map.add
  | .mul => map.mul
  | .push => map.push
  | .pop => map.pop
  | .call => map.call
  | .ret => map.ret
  | .cmp => map.cmp
  | .jmp => map.jmp
  | .jeq => map.jeq
  | .jne => map.jne
  | .st => map.st

/-- The map of R86. -/
def OpcodeMap.table : OpcodeMap :=
  { hlt := 0x01#8, ldi := 0x82#8, prn := 0x47#8, pra := 0x48#8, add := 0xA0#8, mul := 0xA2#8, push := 0x45#8,
    pop := 0x46#8, call := 0x50#8, ret := 0x11#8, cmp := 0xA7#8, jmp := 0x54#8, jeq := 0x55#8, jne := 0x56#8,
    st := 0x84#8 }

/-- `NOPS`, the field `ir[7:6]` of an opcode cell (R81): `(opcode >> 6) & 0b11`. -/
def nops (ir : Byte) : Nat := (ir >>> 6 &&& 0b11#8).toNat

/-- No opcode value occurs twice (R94: "distinct values for distinct instructions"). -/
def distinct : List Byte → Bool
  | [] => true
  | v :: vs => vs.all (fun w => v != w) && distinct vs

/-- What R94 asks of any opcode map: the two high bits equal the operand count, and the values are distinct. -/
def OpcodeMap.legal (map : OpcodeMap) : Bool :=
  Mnemonic.all.all (fun m => nops (map.value m) == m.operandCount) && distinct (Mnemonic.all.map map.value)

/-- The constraints of R6 on a configuration, and those of R94 on its opcode map. `ENABLED` may be any subset of the
15 and `SP_RESET` any byte. -/
def Config.legal (c : Config) : Bool :=
  decide (3 ≤ c.memSize) && decide (c.memSize ≤ 256) && c.opcodeMap.legal

/-- The configuration `FULL` (R7). -/
def Config.full : Config :=
  { memSize := 256, enabled := Mnemonic.all, spReset := 0xF4#8, opcodeMap := OpcodeMap.table }

/-- The configuration `SIMPLE` (R7). -/
def Config.simple : Config :=
  { memSize := 32, enabled := [.hlt, .ldi, .prn, .mul], spReset := 0x00#8, opcodeMap := OpcodeMap.table }

/-- The dispatch lookup (R113): the enabled mnemonic to which the map gives this opcode value. It uses all 8 bits of
`ir` and nothing else. -/
def Config.lookup (c : Config) (ir : Byte) : Option Mnemonic :=
  Mnemonic.all.find? fun m => c.opcodeMap.value m == ir && c.enabled.contains m

/-- The instruction of a mnemonic over the two fetched operand cells, of which it keeps those its format names
(R84, R95, R114). -/
def Mnemonic.instr (m : Mnemonic) (a b : Byte) : Instr :=
  match m with
  | .hlt => .hlt
  | .ldi => .ldi a b
  | .prn => .prn a
  | .pra => .pra a
  | .add => .add a b
  | .mul => .mul a b
  | .push => .push a
  | .pop => .pop a
  | .call => .call a
  | .ret => .ret
  | .cmp => .cmp a b
  | .jmp => .jmp a
  | .jeq => .jeq a
  | .jne => .jne a
  | .st => .st a b

/-- Why the decoder refuses. -/
inductive DecodeError where
  /-- The opcode has no registered handler (R88). -/
  | unknownOpcode (ir : Byte)
  /-- Fewer than the three cells the engine always fetches (R112). -/
  | truncated
  deriving DecidableEq, Repr

/-- Decodes the three fetched cells `ir`, `a`, `b` (R112, R113). -/
def decodeCells (c : Config) (ir a b : Byte) : Except DecodeError Instr :=
  match c.lookup ir with
  | some m => .ok (m.instr a b)
  | none => .error (.unknownOpcode ir)

/-- Decodes the instruction that starts a run of cells, lowest address first. -/
def decode (c : Config) : List Byte → Except DecodeError Instr
  | ir :: a :: b :: _ => decodeCells c ir a b
  | _ => .error .truncated

/-- The mnemonic of an instruction. -/
def Instr.mnemonic : Instr → Mnemonic
  | .hlt => .hlt
  | .ldi _ _ => .ldi
  | .prn _ => .prn
  | .pra _ => .pra
  | .add _ _ => .add
  | .mul _ _ => .mul
  | .push _ => .push
  | .pop _ => .pop
  | .call _ => .call
  | .ret => .ret
  | .cmp _ _ => .cmp
  | .jmp _ => .jmp
  | .jeq _ => .jeq
  | .jne _ => .jne
  | .st _ _ => .st

/-- The operand cells of an instruction, in address order (R83). -/
def Instr.operands : Instr → List Byte
  | .hlt => []
  | .ldi a b => [a, b]
  | .prn a => [a]
  | .pra a => [a]
  | .add a b => [a, b]
  | .mul a b => [a, b]
  | .push a => [a]
  | .pop a => [a]
  | .call a => [a]
  | .ret => []
  | .cmp a b => [a, b]
  | .jmp a => [a]
  | .jeq a => [a]
  | .jne a => [a]
  | .st a b => [a, b]

/-- The cells of an instruction, lowest address first: the opcode cell, then the operands (R80, R83). -/
def encode (map : OpcodeMap) (i : Instr) : List Byte :=
  map.value i.mnemonic :: i.operands

/-- Cell `k` of an instruction whose bits are `w`, its first cell in bits 7 to 0. -/
def tableCell (nbits w k : Nat) : Byte :=
  BitVec.ofNat 8 ((w % 2 ^ nbits) >>> (8 * k))

/-- The instruction the decoder reads from an instruction numbered as spec/opcode_table.json numbers it, in the
configuration of the reset state: the first cell is the low byte, and cells above `nbits` are zero. -/
def decodeTableWord (nbits w : Nat) : Option Instr :=
  match decode Config.full [tableCell nbits w 0, tableCell nbits w 1, tableCell nbits w 2] with
  | .ok i => some i
  | .error _ => none

end Sys2Proof
end

