-- ==== Sys2Proof/Machine/State.lean ====
section
/-! DEFINITION. The machine's state as plain data: the tuple at the head of 10_state.md, with the configuration beside
it, its value after reset (R39), and the reasons a step can end without a next state. -/

namespace Sys2Proof.Machine

/-- A register's number, 0 to 7 (R20). -/
abbrev Reg := Fin 8

/-- `SP`: the register that is the stack pointer, R7 (R5, R22). -/
abbrev sp : Reg := 7

/-- The memory: the cells that do not hold 0x00, by rising address. A cell not listed holds 0x00, its value after
reset (R35, R39; log 3). -/
abbrev Memory := List Host.Cell

/-- The stop causes, with the source's order from normal to fatal (R215). -/
inductive Cause where
  /-- Code 0: no cause; never raised. -/
  | none
  /-- Code 1: HLT, the normal end. -/
  | halt
  /-- Code 2: `pc` ≥ `MEMSIZE` at the start of a step. -/
  | pcOutOfRange
  /-- Code 3: the dispatch table has no handler for the opcode. -/
  | unknownOpcode
  /-- Code 4: the ALU was given an operation it does not implement. -/
  | unsupportedALUOperation
  /-- Code 5: a fetch, a register index or a data address out of range. -/
  | addressOutOfRange
  deriving DecidableEq, Repr

/-- The kind of a stop's information (R216). -/
inductive InfoKind where
  | none | fetch | reg | mem
  deriving DecidableEq, Repr

/-- A stop's information: a kind and a value 0 to 256 (R216). -/
structure Info where
  kind : InfoKind
  value : Nat
  deriving DecidableEq, Repr

/-- A cause with its information: what one `raise` carries (R215, R216). -/
structure Stop where
  cause : Cause
  info : Info
  deriving DecidableEq, Repr

/-- The kind of an output event (R199). -/
inductive EventKind where
  /-- `NUM`, from PRN. -/
  | num
  /-- `CHR`, from PRA. -/
  | chr
  deriving DecidableEq, Repr

/-- One event on the output port (R199). -/
structure Event where
  kind : EventKind
  value : Byte
  deriving DecidableEq, Repr

/-- The whole state of the machine (10_state.md), and the configuration it runs under. -/
structure State where
  /-- The configuration (R6). The spec does not count it as state (R37), and no step changes it (log 1). -/
  cfg : Config
  /-- The general registers `x[0]` to `x[7]` (R20); index 7 is the stack pointer (R22), index 6 is named IS (R23). -/
  regs : Vector Byte 8
  /-- The program counter, 0 to 256, never reduced (R26, R28; log 2). -/
  pc : Nat
  /-- The flags register; bit 0 is the equality bit (R30). -/
  fl : Byte
  /-- The memory (R35). -/
  mem : Memory
  /-- Whether the machine has stopped (R33). -/
  stopped : Bool
  /-- The stop cause, meaningful when `stopped` (R33). -/
  cause : Cause
  /-- The stop information, meaningful when `stopped` (R33). -/
  info : Info
  /-- The events emitted since reset, oldest first (R36). -/
  out : List Event
  deriving DecidableEq, Repr

/-- Why a step can end in a fault. -/
inductive Fault where
  /-- Raised by CALL's meaning alone, when it is applied to a state whose `pc + 2` does not fit a cell, where the
  precondition of `MemWrite` (R53) fails. No step raises it: an instruction executes only at `pc` ≤ `MEMSIZE` - 3
  (R29, R112). Safe: the machine stops where the spec says nothing (log 7). -/
  | returnAddressTooWide (addr : Nat)
  deriving DecidableEq, Repr

/-- Why a step, or a host event at the block's boundary, is refused. -/
inductive Refusal where
  /-- An instruction without a meaning; no arm of `exec` answers it in this model. Safe. -/
  | notModelled (mnemonic : String)
  /-- A step or a reset under a configuration outside R6 or a map outside R94: "refuse the configuration"
  (93_implementation_defined.md U19, U8). Safe. -/
  | illegalConfiguration
  /-- A load outside memory or of a value above 255: "A `Load` outside these bounds is refused" (R198). Safe. -/
  | loadOutOfRange (addr value : Nat)
  /-- An image longer than memory or with a value above 255, refused whole (R247). Safe. -/
  | imageOutOfRange
  /-- A load after the first step has begun: "The load port is closed" (R198). Safe. -/
  | loadPortClosed
  deriving DecidableEq, Repr

/-- What an instruction, or a step, answers. -/
abbrev Result := Host.Outcome State Fault Refusal

/-- The state after reset under a configuration (R38, R39). `cause` and `info` have no value in the spec while the
machine runs; the model names one (log 4). -/
def State.resetIn (c : Config) : State :=
  { cfg := c
    regs := #v[0#8, 0#8, 0#8, 0#8, 0#8, 0#8, 0#8, c.spReset]
    pc := 0
    fl := 0#8
    mem := []
    stopped := false
    cause := .none
    info := ⟨.none, 0⟩
    out := [] }

/-- The state after reset in the configuration `FULL`, the one meant "Unless a rule or a test vector says otherwise"
(R7). -/
def State.reset : State := State.resetIn Config.full

end Sys2Proof.Machine
end

