-- ==== Sys2Proof/Machine/Ops.lean ====
section
/-! DEFINITION. The named operations over memory, registers, program counter, output and the stop record
(00_scope.md R9, 20_memory.md, 40_engine_cycle.md R115, 60_exceptions.md R215). -/

namespace Sys2Proof.Machine

/-! ## Memory -/

/-- One cell of memory; a cell that is not listed holds 0x00 (R39). -/
def Memory.read (m : Memory) (addr : Nat) : Byte :=
  match m with
  | [] => 0#8
  | (k, v) :: rest => if k = addr then v else Memory.read rest addr

/-- Lists a cell at its place by rising address. -/
def Memory.insert (m : Memory) (addr : Nat) (v : Byte) : Memory :=
  match m with
  | [] => [(addr, v)]
  | (k, u) :: rest => if addr < k then (addr, v) :: (k, u) :: rest else (k, u) :: Memory.insert rest addr v

/-- Writes one cell and keeps the canonical form: the old entry goes, and 0x00 is not listed. -/
def Memory.write (m : Memory) (addr : Nat) (v : Byte) : Memory :=
  let others := m.filter fun c => c.1 != addr
  if v = 0#8 then others else Memory.insert others addr v

/-- The canonical form: addresses strictly rising and no entry that holds what an unlisted cell reads as. -/
abbrev Memory.wf (m : Memory) : Prop :=
  m.Pairwise (fun c d => c.1 < d.1) ∧ ∀ c ∈ m, c.2 ≠ 0#8

/-- `MemRead(addr, 1)` (R52). The caller has checked the address (R203). -/
def State.memRead (s : State) (addr : Nat) : Byte := Memory.read s.mem addr

/-- `MemWrite(addr, 1, v)` (R53). The caller has checked the address (R203). -/
def State.memWrite (s : State) (addr : Nat) (v : Byte) : State := { s with mem := Memory.write s.mem addr v }

/-! ## Registers and program counter -/

/-- `x[r]` (R20). No register is hardwired (R21). -/
def State.reg (s : State) (r : Reg) : Byte := s.regs[r.val]

/-- `x[r] <- v` (R20, R21). -/
def State.setReg (s : State) (r : Reg) (v : Byte) : State := { s with regs := s.regs.set r.val v }

/-- `x[7] <- (x[7] - 1) mod 256` (R22). -/
def State.decSp (s : State) : State := s.setReg sp (s.reg sp - 1#8)

/-- `x[7] <- (x[7] + 1) mod 256` (R22). -/
def State.incSp (s : State) : State := s.setReg sp (s.reg sp + 1#8)

/-- `pc <- target`, never reduced (R28). -/
def State.setPc (s : State) (target : Nat) : State := { s with pc := target }

/-- The auto-advance `pc <- pc + ir[7:6] + 1` for the opcode cell of `m` (R115). -/
def State.advance (s : State) (m : Mnemonic) : State :=
  s.setPc (s.pc + nops (s.cfg.opcodeMap.value m) + 1)

/-! ## Output -/

/-- `Emit(kind, v)`: appends one event to the output stream (R199). -/
def State.emit (s : State) (kind : EventKind) (v : Byte) : State := { s with out := s.out ++ [⟨kind, v⟩] }

/-! ## Stops

Taking a stop is the machine's only exception entry. Nothing returns from one: there is no instruction for it (R223),
and the only continuation is reset (R196), which is `State.resetIn`. -/

/-- The code of a cause (R215), as the status output shows it in 3 bits (R201). -/
def Cause.code : Cause → BitVec 3
  | .none => 0
  | .halt => 1
  | .pcOutOfRange => 2
  | .unknownOpcode => 3
  | .unsupportedALUOperation => 4
  | .addressOutOfRange => 5

/-- `raise <Cause>(info)`: writes the stop record and nothing else (R215, R221, R222). -/
def State.raise (s : State) (stop : Stop) : State :=
  { s with stopped := true, cause := stop.cause, info := stop.info }

/-- `Halt` at this program counter (R131, R216). -/
def Stop.halt (pc : Nat) : Stop := ⟨.halt, ⟨.none, pc⟩⟩

/-- `PcOutOfRange(pc)` (R111, R216). -/
def Stop.pcOutOfRange (pc : Nat) : Stop := ⟨.pcOutOfRange, ⟨.none, pc⟩⟩

/-- `UnknownOpcode(ir)` (R113, R216). -/
def Stop.unknownOpcode (ir : Byte) : Stop := ⟨.unknownOpcode, ⟨.none, ir.toNat⟩⟩

/-- `UnsupportedALUOperation` (R155, R216). -/
def Stop.unsupportedALUOperation : Stop := ⟨.unsupportedALUOperation, ⟨.none, 0⟩⟩

/-- `AddressOutOfRange(FETCH, addr)` (R112, R216). -/
def Stop.fetchOutOfRange (addr : Nat) : Stop := ⟨.addressOutOfRange, ⟨.fetch, addr⟩⟩

/-- `AddressOutOfRange(REG, k)` (R24, R216). -/
def Stop.regOutOfRange (k : Byte) : Stop := ⟨.addressOutOfRange, ⟨.reg, k.toNat⟩⟩

/-- `AddressOutOfRange(MEM, addr)` (R54, R216). -/
def Stop.memOutOfRange (addr : Byte) : Stop := ⟨.addressOutOfRange, ⟨.mem, addr.toNat⟩⟩

/-- Ends an instruction that raised no cause: outside `PCSET` the engine advances the program counter, in `PCSET` it
does nothing to it (step 4 of the cycle, R115). -/
def finish (m : Mnemonic) (s : State) : Result :=
  .next (if m.pcSet then s else s.advance m)

end Sys2Proof.Machine
end

