-- ==== Sys2Proof/Machine/Flags.lean ====
section
/-! DEFINITION. The flags register: its one live bit `FL[E]`, bit 0 (10_state.md R30, R31; 00_scope.md R9). -/

namespace Sys2Proof.Machine

/-- `FL[E]` (R30). -/
def State.flagE (s : State) : Bool := s.fl.getLsbD 0

/-- `FL[E] <- b`: the other bits keep their value (R9). -/
def State.setFlagE (s : State) (b : Bool) : State :=
  { s with fl := if b then s.fl ||| 0x01#8 else s.fl &&& 0xFE#8 }

end Sys2Proof.Machine
end

