-- ==== Sys2Proof/Machine/Operands.lean ====
section
/-! DEFINITION. The operand forms and their checks (00_scope.md R9, R10; 10_state.md R24; 20_memory.md R54). Each check
answers the stop when it fails and otherwise goes on, so an instruction reads as its rule: the checks in order, then
the effects. -/

namespace Sys2Proof.Machine

/-- `CheckReg(k)`: goes on with the register the cell names, or raises `AddressOutOfRange(REG, k)`; the index is never
reduced (R24). -/
def requireReg (k : Byte) (s : State) (go : Reg → Result) : Result :=
  if h : k.toNat < 8 then go ⟨k.toNat, h⟩ else .next (s.raise (Stop.regOutOfRange k))

/-- `CheckMem(addr)`: goes on, or raises `AddressOutOfRange(MEM, addr)`; the address is never reduced (R54). -/
def requireMem (addr : Byte) (s : State) (go : Result) : Result :=
  if addr.toNat < s.cfg.memSize then go else .next (s.raise (Stop.memOutOfRange addr))

/-- The precondition of `MemWrite` on the value CALL stores: it fits a cell (R53). It holds whenever the engine runs an
instruction (R29), so no step faults here (log 7). -/
def requireReturnAddress (addr : Nat) (go : Byte → Result) : Result :=
  if addr ≤ 255 then go (BitVec.ofNat 8 addr) else .fault (.returnAddressTooWide addr)

/-- The address a push writes: `(x[7] - 1) mod 256` (R51). -/
def State.pushAddr (s : State) : Byte := s.reg sp - 1#8

/-- The address a pop reads: `x[7]` (R51). -/
def State.popAddr (s : State) : Byte := s.reg sp

end Sys2Proof.Machine
end

