-- ==== Sys2Proof/Machine/Alu.lean ====
section
/-! DEFINITION. The ALU (43_alu.md R150, R151, R155, R156): its contract, and the one way the handlers use it. -/

namespace Sys2Proof.Machine

/-- The operation given to the ALU: the three it implements, and any other (R151). -/
inductive AluOp where
  | add | mul | cmp | other
  deriving DecidableEq, Repr

/-- `(u + v) mod 256`, computed over the integers and reduced (R152, R156). -/
def addByte (u v : Byte) : Byte := BitVec.ofNat 8 ((u.toNat + v.toNat) % 256)

/-- `(u * v) mod 256`, computed over the integers and reduced (R153, R156). -/
def mulByte (u v : Byte) : Byte := BitVec.ofNat 8 ((u.toNat * v.toNat) % 256)

/-- `apply(op, destRegister, sourceRegister)` (R150): reads both registers, then writes the destination or `FL[E]`, or
fails with `UnsupportedALUOperation` (R155). -/
def aluApply (op : AluOp) (dest src : Reg) (s : State) : Except Stop State :=
  match op with
  | .add => .ok (s.setReg dest (addByte (s.reg dest) (s.reg src)))
  | .mul => .ok (s.setReg dest (mulByte (s.reg dest) (s.reg src)))
  | .cmp => .ok (s.setFlagE (s.reg dest == s.reg src))
  | .other => .error Stop.unsupportedALUOperation

/-- A handler's use of the ALU: both operand cells checked, `a` then `b`, one call, and its error raised (R150, R204). -/
def execAlu (m : Mnemonic) (op : AluOp) (a b : Byte) (s : State) : Result :=
  requireReg a s fun dest =>
  requireReg b s fun src =>
  match aluApply op dest src s with
  | .ok t => finish m t
  | .error stop => .next (s.raise stop)

end Sys2Proof.Machine
end

