-- ==== Sys2Proof/Machine/Arithmetic.lean ====
section
/-! DEFINITION. ADD, MUL, CMP (43_alu.md): each calls the ALU once, with its own fixed operation (R150). -/

namespace Sys2Proof.Machine

/-- ADD (R152). -/
def execAdd (a b : Byte) (s : State) : Result := execAlu .add .add a b s

/-- MUL (R153). -/
def execMul (a b : Byte) (s : State) : Result := execAlu .mul .mul a b s

/-- CMP (R154). -/
def execCmp (a b : Byte) (s : State) : Result := execAlu .cmp .cmp a b s

end Sys2Proof.Machine
end

