-- ==== Sys2Proof/Machine/Control.lean ====
section
/-! DEFINITION. CALL, RET, JMP, JEQ, JNE (45_control_transfer.md): the five of `PCSET`, which write the program counter
themselves. A target is not checked here; the next step checks it (R175). -/

namespace Sys2Proof.Machine

/-- CALL (R176): the target is read last, so CALL R7 jumps to the decremented stack pointer. -/
def execCall (a : Byte) (s : State) : Result :=
  requireReg a s fun r =>
  requireMem s.pushAddr s <|
  requireReturnAddress (s.pc + 2) fun ret =>
  let t := s.decSp
  let t := t.memWrite (t.reg sp).toNat ret
  finish .call (t.setPc (t.reg r).toNat)

/-- RET (R177). -/
def execRet (s : State) : Result :=
  requireMem s.popAddr s <|
  finish .ret (s.setPc (s.memRead s.popAddr.toNat).toNat).incSp

/-- JMP (R178). -/
def execJmp (a : Byte) (s : State) : Result :=
  requireReg a s fun r => finish .jmp (s.setPc (s.reg r).toNat)

/-- The common form of JEQ and JNE: the index is checked whether or not the jump is taken (R24), and the handler itself
falls through by 2. -/
def jumpIf (m : Mnemonic) (taken : Bool) (a : Byte) (s : State) : Result :=
  requireReg a s fun r => finish m (s.setPc (if taken then (s.reg r).toNat else s.pc + 2))

/-- JEQ (R179). -/
def execJeq (a : Byte) (s : State) : Result := jumpIf .jeq s.flagE a s

/-- JNE (R180). -/
def execJne (a : Byte) (s : State) : Result := jumpIf .jne (!s.flagE) a s

end Sys2Proof.Machine
end

