-- ==== Sys2Proof/Machine/DataMove.lean ====
section
/-! DEFINITION. LDI, ST (42_data_move.md). -/

namespace Sys2Proof.Machine

/-- LDI (R141): the immediate is the whole cell, without extension, and is not checked as a register index. -/
def execLdi (a b : Byte) (s : State) : Result :=
  requireReg a s fun r => finish .ldi (s.setReg r b)

/-- ST (R142): the address is the whole value of the first register. -/
def execSt (a b : Byte) (s : State) : Result :=
  requireReg a s fun ra =>
  requireReg b s fun rb =>
  requireMem (s.reg ra) s <|
  finish .st (s.memWrite (s.reg ra).toNat (s.reg rb))

end Sys2Proof.Machine
end

