-- ==== Sys2Proof/Machine/Stack.lean ====
section
/-! DEFINITION. PUSH, POP (44_stack.md). The effects follow in the written order, each seeing the one before (R10). -/

namespace Sys2Proof.Machine

/-- PUSH (R166): the register is read after the decrement, so PUSH R7 stores the new stack pointer. -/
def execPush (a : Byte) (s : State) : Result :=
  requireReg a s fun r =>
  requireMem s.pushAddr s <|
  let t := s.decSp
  finish .push (t.memWrite (t.reg sp).toNat (t.reg r))

/-- POP (R167): the register is written before the increment, so POP R7 ends with the popped value plus one. -/
def execPop (a : Byte) (s : State) : Result :=
  requireReg a s fun r =>
  requireMem s.popAddr s <|
  finish .pop (s.setReg r (s.memRead s.popAddr.toNat)).incSp

end Sys2Proof.Machine
end

