-- ==== Sys2Proof/Machine/SystemOutput.lean ====
section
/-! DEFINITION. HLT, PRN, PRA (41_system_output.md). -/

namespace Sys2Proof.Machine

/-- HLT (R131): stops the machine in step 3 of the cycle, so the program counter keeps the address of the HLT. -/
def execHlt (s : State) : Result := .next (s.raise (Stop.halt s.pc))

/-- PRN (R132). -/
def execPrn (a : Byte) (s : State) : Result :=
  requireReg a s fun r => finish .prn (s.emit .num (s.reg r))

/-- PRA (R133). -/
def execPra (a : Byte) (s : State) : Result :=
  requireReg a s fun r => finish .pra (s.emit .chr (s.reg r))

end Sys2Proof.Machine
end

