-- ==== Sys2Proof/Machine/Fetch.lean ====
section
/-! DEFINITION. What a step does before the handler: the end-of-memory test, the fetch and the lookup, in that order
(40_engine_cycle.md R110 to R113, R116). -/

namespace Sys2Proof.Machine

/-- The three cells at the program counter, read for every instruction whatever its length, or the stop (R111, R112). -/
def fetch (s : State) : Except Stop (Byte × Byte × Byte) :=
  if s.cfg.memSize ≤ s.pc then .error (Stop.pcOutOfRange s.pc)
  else if s.cfg.memSize ≤ s.pc + 1 then .error (Stop.fetchOutOfRange (s.pc + 1))
  else if s.cfg.memSize ≤ s.pc + 2 then .error (Stop.fetchOutOfRange (s.pc + 2))
  else .ok (s.memRead s.pc, s.memRead (s.pc + 1), s.memRead (s.pc + 2))

/-- What the next step is to do. -/
inductive Action where
  /-- The configuration is one the spec refuses (93_implementation_defined.md U19). -/
  | refuse (reason : Refusal)
  /-- The machine is stopped: there is no step (R33). -/
  | idle
  /-- The step raises a cause before any handler runs. -/
  | stop (stop : Stop)
  /-- The step runs this instruction. -/
  | run (i : Instr)
  deriving DecidableEq, Repr

/-- The first three parts of the cycle up to the handler's call (R110). -/
def plan (s : State) : Action :=
  if s.cfg.legal then
    if s.stopped then .idle
    else match fetch s with
      | .error stop => .stop stop
      | .ok (ir, a, b) => match decodeCells s.cfg ir a b with
        | .ok i => .run i
        | .error _ => .stop (Stop.unknownOpcode ir)
  else .refuse .illegalConfiguration

/-- Places an instruction's cells where the next fetch reads them: three cells from the program counter, the first at
the lowest address. -/
def State.placeAtPc (s : State) (ir a b : Byte) : State :=
  ((s.memWrite s.pc ir).memWrite (s.pc + 1) a).memWrite (s.pc + 2) b

end Sys2Proof.Machine
end

