-- ==== Sys2Proof/Machine/Step.lean ====
section
/-! DEFINITION. One step of the Execution Engine (40_engine_cycle.md R110). -/

namespace Sys2Proof.Machine

/-- `Step()` (R110): a stopped machine is left as it is, a stop before the handler writes the stop record, and otherwise
exactly one instruction runs. -/
def step (s : State) : Host.Outcome State Fault Refusal :=
  match plan s with
  | .refuse reason => .refused reason
  | .idle => .next s
  | .stop stop => .next (s.raise stop)
  | .run i => exec i s

/-- The state with an instruction, numbered as spec/opcode_table.json numbers it, in the cells the next step fetches;
nothing else changes (log 8). -/
def State.withFetchWord (s : State) (nbits w : Nat) : State :=
  s.placeAtPc (tableCell nbits w 0) (tableCell nbits w 1) (tableCell nbits w 2)

end Sys2Proof.Machine
end

