-- ==== Sys2Proof/Machine/Boundary.lean ====
section
/-! DEFINITION. The block's boundary and what the host may do to it (50_interfaces.md, 70_reset_and_hazards.md): the
configuration, reset, the load port, the output port, the status and the inspection. It stands around the core, whose
`step` knows nothing of it (log 6). -/

namespace Sys2Proof.Machine

/-- The core with its load port. -/
structure Block where
  core : State
  /-- Whether the load port is open: from reset until the first step begins (R198). -/
  loadOpen : Bool
  deriving DecidableEq, Repr

/-- What can happen at the boundary: the host's actions of R207 that have an effect on the block, and the engine's step. -/
inductive BlockEvent where
  /-- Reset under a configuration (R196, R197). -/
  | reset (c : Config)
  /-- `Load(addr, v)` (R198). -/
  | load (addr value : Nat)
  /-- The Loader's whole image, cell by cell from address 0 (R247). -/
  | loadImage (img : List Nat)
  /-- One step of the engine (R110). -/
  | step
  deriving DecidableEq, Repr

/-- The block after a boundary event, or why there is none. -/
abbrev BlockResult := Host.Outcome Block Fault Refusal

/-- Cell values written one after another from an address on (R247). -/
def State.loadFrom (s : State) (addr : Nat) (img : List Nat) : State :=
  match img with
  | [] => s
  | v :: rest => (s.memWrite addr (BitVec.ofNat 8 v)).loadFrom (addr + 1) rest

/-- Reset: every piece of state at its reset value, whatever went before; a configuration outside R6 or R94 is refused
(R196, R245; 93_implementation_defined.md U19). -/
def resetBlock (c : Config) : BlockResult :=
  if c.legal then .next { core := State.resetIn c, loadOpen := true } else .refused .illegalConfiguration

/-- `Load(addr, v)` (R198; 93_implementation_defined.md U14). -/
def loadCell (b : Block) (addr value : Nat) : BlockResult :=
  if !b.loadOpen then .refused .loadPortClosed
  else if addr < b.core.cfg.memSize ∧ value ≤ 255 then
    .next { b with core := b.core.memWrite addr (BitVec.ofNat 8 value) }
  else .refused (.loadOutOfRange addr value)

/-- The image: "a model must refuse such an image rather than truncate it" (R247). -/
def loadBlock (b : Block) (img : List Nat) : BlockResult :=
  if !b.loadOpen then .refused .loadPortClosed
  else if img.length ≤ b.core.cfg.memSize ∧ ∀ v ∈ img, v ≤ 255 then
    .next { b with core := b.core.loadFrom 0 img }
  else .refused .imageOutOfRange

/-- The engine's step, which closes the load port (R198). -/
def stepBlock (b : Block) : BlockResult :=
  match step b.core with
  | .next t => .next { core := t, loadOpen := false }
  | .fault r => .fault r
  | .refused r => .refused r

/-- One event at the boundary (R195, R207). -/
def Block.apply (e : BlockEvent) (b : Block) : BlockResult :=
  match e with
  | .reset c => resetBlock c
  | .load addr value => loadCell b addr value
  | .loadImage img => loadBlock b img
  | .step => stepBlock b

/-- What the status outputs show: `stopped`, the code of the cause, and the information; the last two have no meaning
while the machine runs and are then not shown (R201). -/
def Block.status (b : Block) : Bool × Option (BitVec 3 × Info) :=
  (b.core.stopped, if b.core.stopped then some (b.core.cause.code, b.core.info) else none)

/-- The output port: the events so far, oldest first (R199). Consuming them changes nothing in the core (R207). -/
def Block.output (b : Block) : List Event := b.core.out

/-- Inspection: the whole state when stopped; while the machine runs it is not provided (R202). -/
def Block.inspect (b : Block) : Option State := if b.core.stopped then some b.core else none

end Sys2Proof.Machine
end

