-- ==== Sys2Proof/Safety.lean ====
section
/-! DEFINITION. What claims are stated in: the ends of a run, the invariant of every state a run reaches, the data
address of an instruction, and what it means that a part of the state is left unchanged. -/

namespace Sys2Proof.Machine

/-! ## The ends of a run (R233) -/

/-- The one final state of a successful run: stopped by HLT. -/
def State.halted (s : State) : Prop := s.stopped = true ∧ s.cause = .halt

/-- A faulted state: stopped by one of the three fatal causes; never final. -/
def State.faulted (s : State) : Prop :=
  s.stopped = true ∧ (s.cause = .unknownOpcode ∨ s.cause = .unsupportedALUOperation ∨ s.cause = .addressOutOfRange)

/-- Stopped by the end of memory: neither a success nor a fatal error (R111, R233). -/
def State.ranOffMemory (s : State) : Prop := s.stopped = true ∧ s.cause = .pcOutOfRange

/-! ## The invariant -/

/-- What the stop record of a stopped machine says: the rows of R216 that a program can reach, with the place that
R222 leaves in the program counter. -/
def State.stopRecordOk (s : State) : Prop :=
  (s.cause = .halt ∧ s.info = ⟨.none, s.pc⟩) ∨
  (s.cause = .pcOutOfRange ∧ s.info = ⟨.none, s.pc⟩ ∧ s.cfg.memSize ≤ s.pc) ∨
  (s.cause = .unknownOpcode ∧ s.info = ⟨.none, (s.memRead s.pc).toNat⟩ ∧ s.cfg.lookup (s.memRead s.pc) = none) ∨
  (s.cause = .addressOutOfRange ∧ s.info = ⟨.fetch, s.cfg.memSize⟩ ∧
    s.pc < s.cfg.memSize ∧ s.cfg.memSize ≤ s.pc + 2) ∨
  (s.cause = .addressOutOfRange ∧ s.info.kind = .reg ∧ 8 ≤ s.info.value ∧ s.info.value ≤ 255) ∨
  (s.cause = .addressOutOfRange ∧ s.info.kind = .mem ∧ s.cfg.memSize ≤ s.info.value ∧ s.info.value ≤ 255)

/-- The invariant of every state a run reaches. -/
structure State.Inv (s : State) : Prop where
  /-- The configuration satisfies R6 and its opcode map R94. -/
  legal : s.cfg.legal = true
  /-- 0 ≤ `pc` ≤ 256 (R29). -/
  pcRange : s.pc ≤ 256
  /-- `FL` is 0 or 1 (R32). -/
  flags : s.fl = 0#8 ∨ s.fl = 1#8
  /-- The memory is in its canonical form. -/
  memory : Memory.wf s.mem
  /-- Only cells below `MEMSIZE` exist (R35, R50). -/
  bounds : ∀ c ∈ s.mem, c.1 < s.cfg.memSize
  /-- A stopped machine's record is one of R216's. -/
  record : s.stopped = true → s.stopRecordOk

/-! ## The data address (R51) -/

/-- The address at which an instruction reads or writes data memory, where it does and its operands name registers:
R51's table. -/
def dataAddress (i : Instr) (s : State) : Option Byte :=
  match i with
  | .st a _ => if h : a.toNat < 8 then some (s.reg ⟨a.toNat, h⟩) else none
  | .push _ => some (s.reg sp - 1#8)
  | .call _ => some (s.reg sp - 1#8)
  | .pop _ => some (s.reg sp)
  | .ret => some (s.reg sp)
  | .hlt => none
  | .ldi _ _ => none
  | .prn _ => none
  | .pra _ => none
  | .add _ _ => none
  | .mul _ _ => none
  | .cmp _ _ => none
  | .jmp _ => none
  | .jeq _ => none
  | .jne _ => none

/-! ## What is left unchanged -/

/-- Every register whose number is not among `ds` is unchanged. -/
def regsKeptBut (ds : List Nat) (s t : State) : Prop := ∀ r : Reg, r.val ∉ ds → t.reg r = s.reg r

/-- Every cell reads as before. -/
def memKept (s t : State) : Prop := ∀ addr, t.memRead addr = s.memRead addr

/-- Every cell but this one reads as before. -/
def memKeptBut (d : Byte) (s t : State) : Prop := ∀ addr, addr ≠ d.toNat → t.memRead addr = s.memRead addr

/-- The stop record is unchanged, or the whole difference is a stop taken. -/
def recordKeptOrRaised (s t : State) : Prop :=
  (t.stopped = s.stopped ∧ t.cause = s.cause ∧ t.info = s.info) ∨ ∃ stop, t = s.raise stop

end Sys2Proof.Machine
end

