-- ==== Sys2Proof/Certificates/Slice0/Obligations.lean ====
section
/-! DEFINITION. The statements for the provers, from the numbered rules of spec/. A register operand is a whole cell
`a : Byte`; `a.toNat < 8` says that it names the register `s.regs[a.toNat]`. Next states are written out field by field
and not with the model's own update operations, so that they can be held beside the rule. -/

open Sys2Proof Sys2Proof.Machine

/-! ## Encoding -/

/-- R86's table row by row: the opcode value of each instruction, its operand cells, that no other value of the opcode
cell is an instruction, the operand count in the two high bits, and the membership of PCSET. -/
def Obligations.OpcodeTableDecodes : Prop :=
  (∀ a b : Byte,
    decode Config.full [0x01#8, a, b] = .ok .hlt ∧
    decode Config.full [0x82#8, a, b] = .ok (.ldi a b) ∧
    decode Config.full [0x47#8, a, b] = .ok (.prn a) ∧
    decode Config.full [0x48#8, a, b] = .ok (.pra a) ∧
    decode Config.full [0xA0#8, a, b] = .ok (.add a b) ∧
    decode Config.full [0xA2#8, a, b] = .ok (.mul a b) ∧
    decode Config.full [0x45#8, a, b] = .ok (.push a) ∧
    decode Config.full [0x46#8, a, b] = .ok (.pop a) ∧
    decode Config.full [0x50#8, a, b] = .ok (.call a) ∧
    decode Config.full [0x11#8, a, b] = .ok .ret ∧
    decode Config.full [0xA7#8, a, b] = .ok (.cmp a b) ∧
    decode Config.full [0x54#8, a, b] = .ok (.jmp a) ∧
    decode Config.full [0x55#8, a, b] = .ok (.jeq a) ∧
    decode Config.full [0x56#8, a, b] = .ok (.jne a) ∧
    decode Config.full [0x84#8, a, b] = .ok (.st a b)) ∧
  (∀ ir a b : Byte, (∀ m : Mnemonic, OpcodeMap.table.value m ≠ ir) →
    decode Config.full [ir, a, b] = .error (.unknownOpcode ir)) ∧
  (∀ i : Instr, nops (OpcodeMap.table.value i.mnemonic) = i.operands.length) ∧
  (∀ m : Mnemonic, m.pcSet = true ↔ m ∈ [Mnemonic.call, .ret, .jmp, .jeq, .jne])

/-- Decoding the cells of an instruction gives that instruction back, with every operand at every value of its cell,
under every legal opcode map and every set of enabled instructions that holds it; the cells after it have no effect
(R83, R94, R95). -/
def Obligations.DecodeEncodeRoundTrip : Prop :=
  ∀ (c : Config) (i : Instr) (p q : Byte) (rest : List Byte),
    c.opcodeMap.legal = true → i.mnemonic ∈ c.enabled →
    decode c (encode c.opcodeMap i ++ p :: q :: rest) = .ok i

/-- The other direction: cells that decode are the instruction's own encoding, followed by cells that are no part of
it. -/
def Obligations.EncodeDecodeRoundTrip : Prop :=
  ∀ (c : Config) (cells : List Byte) (i : Instr),
    decode c cells = .ok i → i.mnemonic ∈ c.enabled ∧ encode c.opcodeMap i <+: cells

/-- R88: the decoder refuses an opcode exactly when no enabled mnemonic has this value, whatever the operand cells. -/
def Obligations.UnregisteredOpcodesAreUnknown : Prop :=
  ∀ (c : Config) (ir a b : Byte),
    decodeCells c ir a b = .error (.unknownOpcode ir) ↔ ∀ m ∈ c.enabled, c.opcodeMap.value m ≠ ir

/-- R82: an instruction's cells are one more than the two high bits of its opcode cell say; no registered opcode has
three there, so there are at most three cells. -/
def Obligations.InstructionLengthIsHighBitsPlusOne : Prop :=
  ∀ c : Config, c.opcodeMap.legal = true →
    (∀ i : Instr, ∃ ir, (encode c.opcodeMap i).head? = some ir ∧
      (encode c.opcodeMap i).length = (ir.extractLsb' 6 2).toNat + 1 ∧ (encode c.opcodeMap i).length ≤ 3) ∧
    (∀ ir : Byte, 0xC0 ≤ ir.toNat → c.lookup ir = none)

/-! ## The instructions, one rule each -/

/-- R131 HLT: one stop and nothing else; the machine then stays as it is; the two cells after it are ignored; a HLT in
the last two cells is not reached, since the fetch stops first. -/
def Obligations.HltStopsTheMachine : Prop :=
  (∀ x y : Byte, decode Config.full [0x01#8, x, y] = .ok .hlt) ∧
  (∀ s : State, exec .hlt s = .next { s with stopped := true, cause := .halt, info := ⟨.none, s.pc⟩ }) ∧
  (∀ s t : State, s.cfg.legal = true → exec .hlt s = .next t → step t = .next t) ∧
  (∀ s : State, s.cfg.legal = true → s.stopped = false → (s.pc + 2 = s.cfg.memSize ∨ s.pc + 1 = s.cfg.memSize) →
    step s = .next { s with stopped := true, cause := .addressOutOfRange, info := ⟨.fetch, s.cfg.memSize⟩ })

/-- R132 PRN. -/
def Obligations.PrnEmitsNumber : Prop :=
  ∀ (s : State) (a : Byte), s.cfg.opcodeMap.legal = true →
    (∀ x : Byte, decode Config.full [0x47#8, a, x] = .ok (.prn a)) ∧
    (∀ _ : a.toNat < 8,
      exec (.prn a) s = .next { s with out := s.out ++ [⟨.num, s.regs[a.toNat]⟩], pc := s.pc + 2 }) ∧
    (8 ≤ a.toNat →
      exec (.prn a) s = .next { s with stopped := true, cause := .addressOutOfRange, info := ⟨.reg, a.toNat⟩ })

/-- R133 PRA. -/
def Obligations.PraEmitsCharacter : Prop :=
  ∀ (s : State) (a : Byte), s.cfg.opcodeMap.legal = true →
    (∀ x : Byte, decode Config.full [0x48#8, a, x] = .ok (.pra a)) ∧
    (∀ _ : a.toNat < 8,
      exec (.pra a) s = .next { s with out := s.out ++ [⟨.chr, s.regs[a.toNat]⟩], pc := s.pc + 2 }) ∧
    (8 ≤ a.toNat →
      exec (.pra a) s = .next { s with stopped := true, cause := .addressOutOfRange, info := ⟨.reg, a.toNat⟩ })

/-- R141 LDI: the immediate is written whole and is not checked; a PRN of the same register then emits it. -/
def Obligations.LdiLoadsImmediate : Prop :=
  ∀ (s : State) (a b : Byte), s.cfg.opcodeMap.legal = true →
    decode Config.full [0x82#8, a, b] = .ok (.ldi a b) ∧
    (∀ _ : a.toNat < 8,
      exec (.ldi a b) s = .next { s with regs := s.regs.set a.toNat b, pc := s.pc + 3 } ∧
      exec (.prn a) { s with regs := s.regs.set a.toNat b, pc := s.pc + 3 } =
        .next { s with regs := s.regs.set a.toNat b, pc := s.pc + 5, out := s.out ++ [⟨.num, b⟩] }) ∧
    (8 ≤ a.toNat →
      exec (.ldi a b) s = .next { s with stopped := true, cause := .addressOutOfRange, info := ⟨.reg, a.toNat⟩ })

/-- R142 ST: the address is the whole value of the first register; the checks stop in their order. -/
def Obligations.StStoresRegister : Prop :=
  ∀ (s : State) (a b : Byte), s.cfg.opcodeMap.legal = true →
    decode Config.full [0x84#8, a, b] = .ok (.st a b) ∧
    (∀ (_ : a.toNat < 8) (_ : b.toNat < 8),
      ((s.regs[a.toNat]).toNat < s.cfg.memSize →
        exec (.st a b) s =
          .next { s with mem := Memory.write s.mem (s.regs[a.toNat]).toNat s.regs[b.toNat], pc := s.pc + 3 }) ∧
      (s.cfg.memSize ≤ (s.regs[a.toNat]).toNat →
        exec (.st a b) s =
          .next { s with stopped := true, cause := .addressOutOfRange, info := ⟨.mem, (s.regs[a.toNat]).toNat⟩ })) ∧
    (8 ≤ a.toNat →
      exec (.st a b) s = .next { s with stopped := true, cause := .addressOutOfRange, info := ⟨.reg, a.toNat⟩ }) ∧
    (a.toNat < 8 → 8 ≤ b.toNat →
      exec (.st a b) s = .next { s with stopped := true, cause := .addressOutOfRange, info := ⟨.reg, b.toNat⟩ })

/-- R152 ADD: both registers are read before the write, the sum wraps modulo 256, no flag changes. -/
def Obligations.AddWrapsModulo256 : Prop :=
  ∀ (s : State) (a b : Byte), s.cfg.opcodeMap.legal = true →
    decode Config.full [0xA0#8, a, b] = .ok (.add a b) ∧
    (∀ (_ : a.toNat < 8) (_ : b.toNat < 8),
      exec (.add a b) s =
        .next { s with
          regs := s.regs.set a.toNat (BitVec.ofNat 8 (((s.regs[a.toNat]).toNat + (s.regs[b.toNat]).toNat) % 256))
          pc := s.pc + 3 }) ∧
    (8 ≤ a.toNat →
      exec (.add a b) s = .next { s with stopped := true, cause := .addressOutOfRange, info := ⟨.reg, a.toNat⟩ }) ∧
    (a.toNat < 8 → 8 ≤ b.toNat →
      exec (.add a b) s = .next { s with stopped := true, cause := .addressOutOfRange, info := ⟨.reg, b.toNat⟩ })

/-- R153 MUL: the low 8 bits of the product of the two unsigned values; no flag changes. -/
def Obligations.MulWrapsModulo256 : Prop :=
  ∀ (s : State) (a b : Byte), s.cfg.opcodeMap.legal = true →
    decode Config.full [0xA2#8, a, b] = .ok (.mul a b) ∧
    (∀ (_ : a.toNat < 8) (_ : b.toNat < 8),
      exec (.mul a b) s =
        .next { s with
          regs := s.regs.set a.toNat (BitVec.ofNat 8 (((s.regs[a.toNat]).toNat * (s.regs[b.toNat]).toNat) % 256))
          pc := s.pc + 3 }) ∧
    (8 ≤ a.toNat →
      exec (.mul a b) s = .next { s with stopped := true, cause := .addressOutOfRange, info := ⟨.reg, a.toNat⟩ }) ∧
    (a.toNat < 8 → 8 ≤ b.toNat →
      exec (.mul a b) s = .next { s with stopped := true, cause := .addressOutOfRange, info := ⟨.reg, b.toNat⟩ })

/-- R154 CMP: sets the equality bit on equal values and clears it on unequal ones; no other bit, no register. -/
def Obligations.CmpSetsEqualityBit : Prop :=
  ∀ (s : State) (a b : Byte), s.cfg.opcodeMap.legal = true →
    decode Config.full [0xA7#8, a, b] = .ok (.cmp a b) ∧
    (∀ (_ : a.toNat < 8) (_ : b.toNat < 8),
      (s.regs[a.toNat] = s.regs[b.toNat] →
        exec (.cmp a b) s = .next { s with fl := s.fl ||| 0x01#8, pc := s.pc + 3 }) ∧
      (s.regs[a.toNat] ≠ s.regs[b.toNat] →
        exec (.cmp a b) s = .next { s with fl := s.fl &&& 0xFE#8, pc := s.pc + 3 })) ∧
    (8 ≤ a.toNat →
      exec (.cmp a b) s = .next { s with stopped := true, cause := .addressOutOfRange, info := ⟨.reg, a.toNat⟩ }) ∧
    (a.toNat < 8 → 8 ≤ b.toNat →
      exec (.cmp a b) s = .next { s with stopped := true, cause := .addressOutOfRange, info := ⟨.reg, b.toNat⟩ })

/-- R166 PUSH: the stack pointer goes down by one modulo 256, then the register is read, so PUSH R7 stores the new
stack pointer. `d` is the decremented stack pointer, `(x[7] - 1) mod 256`. -/
def Obligations.PushStoresBelowTheStackPointer : Prop :=
  ∀ (s : State) (a d : Byte), s.cfg.opcodeMap.legal = true →
    d = BitVec.ofNat 8 (((s.regs[7]).toNat + 255) % 256) →
    (∀ x : Byte, decode Config.full [0x45#8, a, x] = .ok (.push a)) ∧
    (∀ _ : a.toNat < 8,
      (d.toNat < s.cfg.memSize →
        exec (.push a) s =
          .next { s with
            regs := s.regs.set 7 d
            mem := Memory.write s.mem d.toNat (if a.toNat = 7 then d else s.regs[a.toNat])
            pc := s.pc + 2 }) ∧
      (s.cfg.memSize ≤ d.toNat →
        exec (.push a) s =
          .next { s with stopped := true, cause := .addressOutOfRange, info := ⟨.mem, d.toNat⟩ })) ∧
    (8 ≤ a.toNat →
      exec (.push a) s = .next { s with stopped := true, cause := .addressOutOfRange, info := ⟨.reg, a.toNat⟩ })

/-- R167 POP: the register takes the cell at the stack pointer, which then goes up by one modulo 256; POP R7 ends with
the popped value plus one. -/
def Obligations.PopLoadsFromTheStackPointer : Prop :=
  ∀ (s : State) (a : Byte), s.cfg.opcodeMap.legal = true →
    (∀ x : Byte, decode Config.full [0x46#8, a, x] = .ok (.pop a)) ∧
    (∀ _ : a.toNat < 8,
      ((s.regs[7]).toNat < s.cfg.memSize →
        (a.toNat ≠ 7 →
          exec (.pop a) s =
            .next { s with
              regs := (s.regs.set a.toNat (s.memRead (s.regs[7]).toNat)).set 7
                (BitVec.ofNat 8 (((s.regs[7]).toNat + 1) % 256))
              pc := s.pc + 2 }) ∧
        (a.toNat = 7 →
          exec (.pop a) s =
            .next { s with
              regs := s.regs.set 7 (BitVec.ofNat 8 (((s.memRead (s.regs[7]).toNat).toNat + 1) % 256))
              pc := s.pc + 2 })) ∧
      (s.cfg.memSize ≤ (s.regs[7]).toNat →
        exec (.pop a) s =
          .next { s with stopped := true, cause := .addressOutOfRange, info := ⟨.mem, (s.regs[7]).toNat⟩ })) ∧
    (8 ≤ a.toNat →
      exec (.pop a) s = .next { s with stopped := true, cause := .addressOutOfRange, info := ⟨.reg, a.toNat⟩ })

/-- R176 CALL: pushes `pc + 2` and jumps to the register, read last, so CALL R7 jumps to the new stack pointer. `d` is
the decremented stack pointer, `(x[7] - 1) mod 256`; `pc ≤ 253` is where an instruction can execute (R29). -/
def Obligations.CallPushesReturnAddress : Prop :=
  ∀ (s : State) (a d : Byte), d = BitVec.ofNat 8 (((s.regs[7]).toNat + 255) % 256) →
    (∀ x : Byte, decode Config.full [0x50#8, a, x] = .ok (.call a)) ∧
    (∀ _ : a.toNat < 8,
      (d.toNat < s.cfg.memSize → s.pc ≤ 253 →
        exec (.call a) s =
          .next { s with
            regs := s.regs.set 7 d
            mem := Memory.write s.mem d.toNat (BitVec.ofNat 8 (s.pc + 2))
            pc := if a.toNat = 7 then d.toNat else (s.regs[a.toNat]).toNat }) ∧
      (s.cfg.memSize ≤ d.toNat →
        exec (.call a) s =
          .next { s with stopped := true, cause := .addressOutOfRange, info := ⟨.mem, d.toNat⟩ })) ∧
    (8 ≤ a.toNat →
      exec (.call a) s = .next { s with stopped := true, cause := .addressOutOfRange, info := ⟨.reg, a.toNat⟩ })

/-- R177 RET. -/
def Obligations.RetPopsTheProgramCounter : Prop :=
  (∀ x y : Byte, decode Config.full [0x11#8, x, y] = .ok .ret) ∧
  (∀ s : State,
    ((s.regs[7]).toNat < s.cfg.memSize →
      exec .ret s =
        .next { s with
          regs := s.regs.set 7 (BitVec.ofNat 8 (((s.regs[7]).toNat + 1) % 256))
          pc := (s.memRead (s.regs[7]).toNat).toNat }) ∧
    (s.cfg.memSize ≤ (s.regs[7]).toNat →
      exec .ret s =
        .next { s with stopped := true, cause := .addressOutOfRange, info := ⟨.mem, (s.regs[7]).toNat⟩ }))

/-- R178 JMP; in particular a jump to its own address changes nothing at all. -/
def Obligations.JmpGoesToRegister : Prop :=
  ∀ (s : State) (a : Byte),
    (∀ x : Byte, decode Config.full [0x54#8, a, x] = .ok (.jmp a)) ∧
    (∀ _ : a.toNat < 8, exec (.jmp a) s = .next { s with pc := (s.regs[a.toNat]).toNat }) ∧
    (8 ≤ a.toNat →
      exec (.jmp a) s = .next { s with stopped := true, cause := .addressOutOfRange, info := ⟨.reg, a.toNat⟩ })

/-- R179 JEQ: the index is checked whether or not the jump is taken. -/
def Obligations.JeqJumpsOnEquality : Prop :=
  ∀ (s : State) (a : Byte),
    (∀ x : Byte, decode Config.full [0x55#8, a, x] = .ok (.jeq a)) ∧
    (∀ _ : a.toNat < 8,
      (s.fl.getLsbD 0 = true → exec (.jeq a) s = .next { s with pc := (s.regs[a.toNat]).toNat }) ∧
      (s.fl.getLsbD 0 = false → exec (.jeq a) s = .next { s with pc := s.pc + 2 })) ∧
    (8 ≤ a.toNat →
      exec (.jeq a) s = .next { s with stopped := true, cause := .addressOutOfRange, info := ⟨.reg, a.toNat⟩ })

/-- R180 JNE: as JEQ with the bit clear. -/
def Obligations.JneJumpsOnInequality : Prop :=
  ∀ (s : State) (a : Byte),
    (∀ x : Byte, decode Config.full [0x56#8, a, x] = .ok (.jne a)) ∧
    (∀ _ : a.toNat < 8,
      (s.fl.getLsbD 0 = false → exec (.jne a) s = .next { s with pc := (s.regs[a.toNat]).toNat }) ∧
      (s.fl.getLsbD 0 = true → exec (.jne a) s = .next { s with pc := s.pc + 2 })) ∧
    (8 ≤ a.toNat →
      exec (.jne a) s = .next { s with stopped := true, cause := .addressOutOfRange, info := ⟨.reg, a.toNat⟩ })

/-- The model's own limit on CALL (log 7): applied where `pc + 2` does not fit a cell, which no step reaches, CALL
faults by name instead of storing a truncated address. -/
def Obligations.CallFaultsWhereReturnAddressDoesNotFit : Prop :=
  ∀ (s : State) (a : Byte), a.toNat < 8 → (s.regs[7] - 1#8).toNat < s.cfg.memSize → 254 ≤ s.pc →
    exec (.call a) s = .fault (.returnAddressTooWide (s.pc + 2))

/-! ## Frames -/

/-- LDI, ADD, MUL: every register but the first operand's, the flags, all of memory, the output and the configuration
are unchanged, and the stop record is unchanged unless the instruction stops. -/
def Obligations.FrameOfLdiAddMul : Prop :=
  ∀ (s t : State) (a b : Byte),
    (exec (.ldi a b) s = .next t ∨ exec (.add a b) s = .next t ∨ exec (.mul a b) s = .next t) →
    regsKeptBut [a.toNat] s t ∧ t.fl = s.fl ∧ memKept s t ∧ t.out = s.out ∧ t.cfg = s.cfg ∧ recordKeptOrRaised s t

/-- PRN, PRA: all but the output and the program counter is unchanged. -/
def Obligations.FrameOfPrnPra : Prop :=
  ∀ (s t : State) (a : Byte), (exec (.prn a) s = .next t ∨ exec (.pra a) s = .next t) →
    regsKeptBut [] s t ∧ t.fl = s.fl ∧ memKept s t ∧ t.cfg = s.cfg ∧ recordKeptOrRaised s t

/-- CMP and HLT: every register, all of memory and the output are unchanged; CMP leaves every flag bit but the equality
bit, HLT leaves all of them and the program counter. -/
def Obligations.FrameOfCmpHlt : Prop :=
  (∀ (s t : State) (a b : Byte), exec (.cmp a b) s = .next t →
    regsKeptBut [] s t ∧ (∀ k, k ≠ 0 → t.fl.getLsbD k = s.fl.getLsbD k) ∧ memKept s t ∧ t.out = s.out ∧
      t.cfg = s.cfg ∧ recordKeptOrRaised s t) ∧
  (∀ s t : State, exec .hlt s = .next t →
    regsKeptBut [] s t ∧ t.fl = s.fl ∧ memKept s t ∧ t.out = s.out ∧ t.pc = s.pc ∧ t.cfg = s.cfg ∧
      recordKeptOrRaised s t)

/-- ST: every register and flag and the output are unchanged, and every cell but the one at the first register's value. -/
def Obligations.FrameOfSt : Prop :=
  ∀ (s t : State) (a b : Byte), exec (.st a b) s = .next t →
    regsKeptBut [] s t ∧ t.fl = s.fl ∧ t.out = s.out ∧ t.cfg = s.cfg ∧ recordKeptOrRaised s t ∧
    (∀ h : a.toNat < 8, memKeptBut (s.reg ⟨a.toNat, h⟩) s t) ∧ (8 ≤ a.toNat → memKept s t)

/-- PUSH, CALL: every register but the stack pointer, the flags and the output are unchanged, and every cell but the one
below the stack pointer. -/
def Obligations.FrameOfPushCall : Prop :=
  ∀ (s t : State) (a : Byte), (exec (.push a) s = .next t ∨ exec (.call a) s = .next t) →
    regsKeptBut [7] s t ∧ t.fl = s.fl ∧ t.out = s.out ∧ t.cfg = s.cfg ∧ recordKeptOrRaised s t ∧
    memKeptBut s.pushAddr s t

/-- POP, RET: every register but POP's operand and the stack pointer, the flags, all of memory and the output are
unchanged. -/
def Obligations.FrameOfPopRet : Prop :=
  (∀ (s t : State) (a : Byte), exec (.pop a) s = .next t →
    regsKeptBut [a.toNat, 7] s t ∧ t.fl = s.fl ∧ memKept s t ∧ t.out = s.out ∧ t.cfg = s.cfg ∧
      recordKeptOrRaised s t) ∧
  (∀ s t : State, exec .ret s = .next t →
    regsKeptBut [7] s t ∧ t.fl = s.fl ∧ memKept s t ∧ t.out = s.out ∧ t.cfg = s.cfg ∧ recordKeptOrRaised s t)

/-- JMP, JEQ, JNE: all but the program counter is unchanged. -/
def Obligations.FrameOfJumps : Prop :=
  ∀ (s t : State) (a : Byte),
    (exec (.jmp a) s = .next t ∨ exec (.jeq a) s = .next t ∨ exec (.jne a) s = .next t) →
    regsKeptBut [] s t ∧ t.fl = s.fl ∧ memKept s t ∧ t.out = s.out ∧ t.cfg = s.cfg ∧ recordKeptOrRaised s t

/-! ## The step -/

/-- A step of a running machine whose three cells are in memory and decode to an instruction is that instruction's
execution on the same state: nothing is added around it (R110, R114). -/
def Obligations.StepRunsDecodedInstruction : Prop :=
  ∀ (s : State) (i : Instr), s.cfg.legal = true → s.stopped = false → s.pc + 2 < s.cfg.memSize →
    decode s.cfg [s.memRead s.pc, s.memRead (s.pc + 1), s.memRead (s.pc + 2)] = .ok i → step s = exec i s

/-- The stops before the handler, in their order (R111, R112, R113, R220 items 1 to 3): each writes the stop record and
nothing else. The fetch stop's address is `MEMSIZE` in both cases. -/
def Obligations.StepStopsBeforeTheHandler : Prop :=
  ∀ s : State, s.cfg.legal = true → s.stopped = false →
    (s.cfg.memSize ≤ s.pc →
      step s = .next { s with stopped := true, cause := .pcOutOfRange, info := ⟨.none, s.pc⟩ }) ∧
    (s.pc < s.cfg.memSize → s.cfg.memSize ≤ s.pc + 2 →
      step s = .next { s with stopped := true, cause := .addressOutOfRange, info := ⟨.fetch, s.cfg.memSize⟩ }) ∧
    (s.pc + 2 < s.cfg.memSize → (∀ m ∈ s.cfg.enabled, s.cfg.opcodeMap.value m ≠ s.memRead s.pc) →
      step s =
        .next { s with stopped := true, cause := .unknownOpcode, info := ⟨.none, (s.memRead s.pc).toNat⟩ })

/-- R33: once stopped, nothing changes, however many steps follow. -/
def Obligations.StoppedMachineIsFrozen : Prop :=
  ∀ (s : State) (n : Nat), s.cfg.legal = true → s.stopped = true → core.run n s = .next s

/-- R222: a step that stops the machine changes nothing but the stop record. -/
def Obligations.StopsArePrecise : Prop :=
  ∀ s t : State, s.stopped = false → step s = .next t → t.stopped = true →
    t.regs = s.regs ∧ t.fl = s.fl ∧ t.mem = s.mem ∧ t.pc = s.pc ∧ t.out = s.out ∧ t.cfg = s.cfg

/-- Under a legal configuration every step answers a next state: no step faults and none is refused. -/
def Obligations.EveryStepAnswersNext : Prop :=
  ∀ s : State, s.cfg.legal = true → ∃ t, step s = .next t

/-- A configuration outside R6 or a map outside R94 is refused, at the step and at reset. -/
def Obligations.IllegalConfigurationIsRefused : Prop :=
  (∀ s : State, s.cfg.legal = false → step s = .refused .illegalConfiguration) ∧
  (∀ (b : Block) (c : Config), c.legal = false → b.apply (.reset c) = .refused .illegalConfiguration) ∧
  (∀ c : Config, (c.memSize < 3 ∨ 256 < c.memSize) → c.legal = false) ∧
  (∀ (c : Config) (m n : Mnemonic), m ≠ n → c.opcodeMap.value m = c.opcodeMap.value n → c.legal = false) ∧
  (∀ (c : Config) (m : Mnemonic), nops (c.opcodeMap.value m) ≠ m.operandCount → c.legal = false)

/-- R197: the configuration never changes. -/
def Obligations.ConfigurationNeverChanges : Prop :=
  ∀ (s t : State) (n : Nat), core.run n s = .next t → t.cfg = s.cfg

/-- Every step keeps the invariant: the memory stays canonical and inside `MEMSIZE`, 0 ≤ pc ≤ 256 (R29), FL is 0 or 1
(R32), the configuration stays legal, and a stopped machine's record is one of R216's, with the place it names. -/
def Obligations.InvariantIsKeptByEveryStep : Prop :=
  ∀ s t : State, s.Inv → step s = .next t → t.Inv

/-- The invariant holds after reset in every legal configuration, and so in `State.reset`. -/
def Obligations.InvariantHoldsAtReset : Prop :=
  (∀ c : Config, c.legal = true → (State.resetIn c).Inv) ∧ State.reset.Inv

/-- The invariant holds along the whole run of any loaded image. -/
def Obligations.InvariantHoldsAlongEveryRun : Prop :=
  ∀ (c : Config) (img : List Nat) (b b' : Block) (n : Nat) (t : State),
    resetBlock c = .next b → b.apply (.loadImage img) = .next b' → core.run n b'.core = .next t → t.Inv

/-! ## Rules of the whole machine -/

/-- R24: every cell the format uses as a register index is checked before any effect, in operand order, for every
instruction, and the first that is 8 or more is the one reported. -/
def Obligations.RegisterIndexIsCheckedFirst : Prop :=
  ∀ (i : Instr) (s : State) (k : Byte), i.regOperands.find? (fun c => decide (8 ≤ c.toNat)) = some k →
    exec i s = .next { s with stopped := true, cause := .addressOutOfRange, info := ⟨.reg, k.toNat⟩ }

/-- A well-formed instruction whose data address, where it has one, is in memory runs to its end: the stop record is
unchanged (R217). HLT alone is excepted: its effect is the stop. -/
def Obligations.WellFormedInstructionsComplete : Prop :=
  ∀ (i : Instr) (s : State), WellFormed i = true → i ≠ .hlt → s.pc ≤ 253 →
    (∀ d, dataAddress i s = some d → d.toNat < s.cfg.memSize) →
    ∃ t, exec i s = .next t ∧ t.stopped = s.stopped ∧ t.cause = s.cause ∧ t.info = s.info

/-- R54: a well-formed instruction whose data address is outside memory stops with that address. -/
def Obligations.DataAddressIsChecked : Prop :=
  ∀ (i : Instr) (s : State) (d : Byte), WellFormed i = true → dataAddress i s = some d →
    s.cfg.memSize ≤ d.toNat →
    exec i s = .next { s with stopped := true, cause := .addressOutOfRange, info := ⟨.mem, d.toNat⟩ }

/-- R217: which cause a step can raise, and when. -/
def Obligations.StopCausesHaveTheirSources : Prop :=
  ∀ s t : State, s.stopped = false → step s = .next t → t.stopped = true →
    (t.cause = .pcOutOfRange ∧ t.info = ⟨.none, s.pc⟩ ∧ s.cfg.memSize ≤ s.pc) ∨
    (t.cause = .addressOutOfRange ∧ t.info.kind = .fetch ∧
      (s.pc + 2 = s.cfg.memSize ∨ s.pc + 1 = s.cfg.memSize)) ∨
    (t.cause = .unknownOpcode ∧ s.cfg.lookup (s.memRead s.pc) = none) ∨
    (∃ i, decode s.cfg [s.memRead s.pc, s.memRead (s.pc + 1), s.memRead (s.pc + 2)] = .ok i ∧
      ((t.cause = .addressOutOfRange ∧ ∃ k ∈ i.regOperands, 8 ≤ k.toNat ∧ t.info = ⟨.reg, k.toNat⟩) ∨
       (t.cause = .addressOutOfRange ∧
         ∃ d, dataAddress i s = some d ∧ s.cfg.memSize ≤ d.toNat ∧ t.info = ⟨.mem, d.toNat⟩) ∨
       (t.cause = .halt ∧ i = .hlt ∧ t.info = ⟨.none, s.pc⟩)))

/-- R155: the ALU fails on every operation outside the three, and no step ever stops for it. -/
def Obligations.UnsupportedAluOperationIsUnreachable : Prop :=
  (∀ (d r : Reg) (s : State), aluApply .other d r s = .error ⟨.unsupportedALUOperation, ⟨.none, 0⟩⟩) ∧
  (∀ s t : State, s.cause ≠ .unsupportedALUOperation → step s = .next t → t.cause ≠ .unsupportedALUOperation)

/-- With 256 cells, as in FULL, no step stops for a data address, since every 8-bit address is valid (R54). -/
def Obligations.FullMemoryHasNoDataAddressStop : Prop :=
  ∀ s t : State, s.cfg.memSize = 256 → s.stopped = false → step s = .next t → t.stopped = true →
    t.info.kind ≠ .mem

/-- R31: only CMP writes the flags register. -/
def Obligations.OnlyCmpWritesTheFlags : Prop :=
  ∀ (i : Instr) (s t : State), i.mnemonic ≠ .cmp → exec i s = .next t → t.fl = s.fl

/-- R31: only JEQ and JNE read the flags register: with another flags value every other instruction does the same to
everything else. -/
def Obligations.OnlyConditionalJumpsReadTheFlags : Prop :=
  ∀ (i : Instr) (s t : State) (f : Byte), i.mnemonic ≠ .jeq → i.mnemonic ≠ .jne → exec i s = .next t →
    ∃ f', exec i { s with fl := f } = .next { t with fl := f' }

/-- R36: the output is write-only: with another past output a step does the same, and appends the same. -/
def Obligations.OutputIsNeverRead : Prop :=
  ∀ (s t : State) (earlier : List Event), step s = .next t →
    step { s with out := earlier ++ s.out } = .next { t with out := earlier ++ t.out }

/-- R199: a step appends at most one event, and only a PRN or PRA that did not stop appends one. -/
def Obligations.OnlyPrintsEmit : Prop :=
  ∀ s t : State, step s = .next t →
    t.out = s.out ∨
    ∃ a, t.stopped = false ∧
      ((decode s.cfg [s.memRead s.pc, s.memRead (s.pc + 1), s.memRead (s.pc + 2)] = .ok (.prn a) ∧
          ∃ v, t.out = s.out ++ [⟨.num, v⟩]) ∨
       (decode s.cfg [s.memRead s.pc, s.memRead (s.pc + 1), s.memRead (s.pc + 2)] = .ok (.pra a) ∧
          ∃ v, t.out = s.out ++ [⟨.chr, v⟩]))

/-- R51: only ST, PUSH and CALL change memory, and only at their data address. -/
def Obligations.MemoryChangesOnlyAtTheDataAddress : Prop :=
  ∀ (i : Instr) (s t : State) (addr : Nat), exec i s = .next t → t.memRead addr ≠ s.memRead addr →
    (i.mnemonic = .st ∨ i.mnemonic = .push ∨ i.mnemonic = .call) ∧ (dataAddress i s).map BitVec.toNat = some addr

/-- R21: only LDI, ADD, MUL and POP change the register they name, and only PUSH, POP, CALL and RET change the stack
pointer without naming it. -/
def Obligations.RegistersHaveTheirWriters : Prop :=
  ∀ (i : Instr) (s t : State) (r : Reg), exec i s = .next t → t.reg r ≠ s.reg r →
    (i.mnemonic ∈ [Mnemonic.ldi, .add, .mul, .pop] ∧ i.operands.head?.map BitVec.toNat = some r.val) ∨
    (i.mnemonic ∈ [Mnemonic.push, .pop, .call, .ret] ∧ r = 7)

/-- R115: an instruction outside PCSET that does not stop advances the program counter by the two high bits of its
opcode plus one; there are no other advances. -/
def Obligations.AutoAdvanceOutsidePcSet : Prop :=
  ∀ (i : Instr) (s t : State), s.stopped = false → i.mnemonic ∉ [Mnemonic.call, .ret, .jmp, .jeq, .jne] →
    exec i s = .next t → t.stopped = false →
    t.pc = s.pc + ((s.cfg.opcodeMap.value i.mnemonic).extractLsb' 6 2).toNat + 1

/-- R53: the cell written reads as the value written, every other cell as before, and nothing else of the state
changes. -/
def Obligations.MemoryReadAfterWrite : Prop :=
  ∀ (s : State) (addr : Nat) (v : Byte),
    (s.memWrite addr v).memRead addr = v ∧
    (∀ other, other ≠ addr → (s.memWrite addr v).memRead other = s.memRead other) ∧
    s.memWrite addr v = { s with mem := (s.memWrite addr v).mem }

/-- R64: a store is seen by the very next fetch, from the cell it hit. -/
def Obligations.StoreIsSeenByTheNextFetch : Prop :=
  ∀ (s t : State) (a b : Byte) (ha : a.toNat < 8) (hb : b.toNat < 8), exec (.st a b) s = .next t →
    (s.reg ⟨a.toNat, ha⟩).toNat < s.cfg.memSize → t.pc + 2 < t.cfg.memSize →
    ∃ ir x y, fetch t = .ok (ir, x, y) ∧
      ((s.reg ⟨a.toNat, ha⟩).toNat = t.pc → ir = s.reg ⟨b.toNat, hb⟩) ∧
      ((s.reg ⟨a.toNat, ha⟩).toNat = t.pc + 1 → x = s.reg ⟨b.toNat, hb⟩) ∧
      ((s.reg ⟨a.toNat, ha⟩).toNat = t.pc + 2 → y = s.reg ⟨b.toNat, hb⟩)

/-! ## Laws over several instructions -/

/-- R168: PUSH then POP of the same register, R7 included, changes only the program counter and the cell below the
stack pointer. -/
def Obligations.PushPopRestores : Prop :=
  ∀ (s : State) (a : Byte), s.cfg.opcodeMap.legal = true → a.toNat < 8 →
    (s.reg sp - 1#8).toNat < s.cfg.memSize →
    ∃ t u, exec (.push a) s = .next t ∧ exec (.pop a) t = .next u ∧
      u.regs = s.regs ∧ u.pc = s.pc + 4 ∧ u.fl = s.fl ∧ u.out = s.out ∧ u.stopped = s.stopped ∧
      memKeptBut (s.reg sp - 1#8) s u

/-- R181: a RET in any state with the stack pointer and the cell it points to as CALL left them resumes after CALL's
operand with CALL's stack pointer. -/
def Obligations.CallReturnResumes : Prop :=
  ∀ (s t u : State) (a : Byte), a.toNat < 8 → (s.reg sp - 1#8).toNat < s.cfg.memSize →
    exec (.call a) s = .next t →
    u.cfg = s.cfg → u.reg sp = t.reg sp → u.memRead (u.reg sp).toNat = t.memRead (t.reg sp).toNat →
    ∃ v, exec .ret u = .next v ∧ v.pc = s.pc + 2 ∧ v.reg sp = s.reg sp

/-- R182: after a CMP that did not stop, in any later state with the same flags, JEQ jumps exactly when the compared
values were equal and JNE exactly when they were not; otherwise each goes on by 2. -/
def Obligations.CompareDecidesTheBranch : Prop :=
  ∀ (s t u : State) (a b k : Byte) (ha : a.toNat < 8) (hb : b.toNat < 8) (hk : k.toNat < 8),
    exec (.cmp a b) s = .next t → u.fl = t.fl →
    exec (.jeq k) u = .next (u.setPc
      (if s.reg ⟨a.toNat, ha⟩ = s.reg ⟨b.toNat, hb⟩ then (u.reg ⟨k.toNat, hk⟩).toNat else u.pc + 2)) ∧
    exec (.jne k) u = .next (u.setPc
      (if s.reg ⟨a.toNat, ha⟩ = s.reg ⟨b.toNat, hb⟩ then u.pc + 2 else (u.reg ⟨k.toNat, hk⟩).toNat))

/-- R118: a jump to its own address runs for ever: after any number of steps the state is the same. -/
def Obligations.SelfJumpNeverEnds : Prop :=
  ∀ (s : State) (a : Byte) (ha : a.toNat < 8) (n : Nat), s.cfg.legal = true → s.stopped = false →
    s.pc + 2 < s.cfg.memSize →
    decode s.cfg [s.memRead s.pc, s.memRead (s.pc + 1), s.memRead (s.pc + 2)] = .ok (.jmp a) →
    (s.reg ⟨a.toNat, ha⟩).toNat = s.pc → core.run n s = .next s

/-! ## Reset and the boundary -/

/-- R39, R196: the reset values, in FULL and in any configuration, and that a reset at any time gives them, whatever went
before. The stop cause and information have no value in the spec while the machine runs, and nothing is said of them
here. -/
def Obligations.ResetValues : Prop :=
  (∀ c : Config,
    (State.resetIn c).cfg = c ∧ (∀ r : Reg, r ≠ 7 → (State.resetIn c).reg r = 0#8) ∧
    (State.resetIn c).reg 7 = c.spReset ∧ (State.resetIn c).pc = 0 ∧ (State.resetIn c).fl = 0#8 ∧
    (∀ addr, (State.resetIn c).memRead addr = 0#8) ∧ (State.resetIn c).stopped = false ∧ (State.resetIn c).out = []) ∧
  State.reset = State.resetIn Config.full ∧ State.reset.reg 7 = 0xF4#8 ∧ (State.resetIn Config.simple).reg 7 = 0x00#8 ∧
  (∀ (b : Block) (c : Config), c.legal = true →
    ∃ b', b.apply (.reset c) = .next b' ∧ b'.core = State.resetIn c ∧ b'.loadOpen = true)

/-- R247: an image within bounds stands in memory from address 0 with 0x00 beyond it, and nothing else of the reset
state changes; a longer image, or one with a value above 255, is refused. -/
def Obligations.ImageStandsFromAddressZero : Prop :=
  ∀ (c : Config) (img : List Nat) (b : Block), resetBlock c = .next b →
    ((img.length ≤ c.memSize ∧ ∀ v ∈ img, v ≤ 255) →
      ∃ b', b.apply (.loadImage img) = .next b' ∧
        (∀ (k : Nat) (hk : k < img.length), (b'.core.memRead k).toNat = img[k]) ∧
        (∀ k, img.length ≤ k → b'.core.memRead k = 0#8) ∧
        b'.core = { State.resetIn c with mem := b'.core.mem }) ∧
    ((c.memSize < img.length ∨ ∃ v ∈ img, 255 < v) →
      b.apply (.loadImage img) = .refused .imageOutOfRange)

/-- R198: while the port is open a load in bounds sets that one cell; out of bounds it is refused; once a step has
begun every load is refused. -/
def Obligations.LoadPortOpensUntilTheFirstStep : Prop :=
  ∀ (b : Block) (addr v : Nat),
    (b.loadOpen = true → addr < b.core.cfg.memSize → v ≤ 255 →
      ∃ b', b.apply (.load addr v) = .next b' ∧ b'.loadOpen = true ∧ (b'.core.memRead addr).toNat = v ∧
        (∀ other, other ≠ addr → b'.core.memRead other = b.core.memRead other) ∧
        b'.core = { b.core with mem := b'.core.mem }) ∧
    (b.loadOpen = true → (b.core.cfg.memSize ≤ addr ∨ 255 < v) →
      b.apply (.load addr v) = .refused (.loadOutOfRange addr v)) ∧
    (∀ b' img, b.apply .step = .next b' →
      b'.apply (.load addr v) = .refused .loadPortClosed ∧ b'.apply (.loadImage img) = .refused .loadPortClosed)
end

