-- ==== Sys2Proof/Laws/Decode.lean ====
section
/-! SUPPORT. The dispatch lookup: what it finds, and what a legal map guarantees (R94, R113). -/

namespace Sys2Proof

theorem Mnemonic.mem_all (m : Mnemonic) : m ∈ Mnemonic.all := by cases m <;> decide

theorem nodup_of_distinct {vs : List Byte} (h : distinct vs = true) : vs.Nodup := by
  induction vs with
  | nil => simp
  | cons v vs ih =>
    simp only [distinct, Bool.and_eq_true, List.all_eq_true, bne_iff_ne] at h
    exact List.nodup_cons.mpr ⟨fun hv => h.1 v hv rfl, ih h.2⟩

/-- Under a legal map distinct mnemonics have distinct opcode values. -/
theorem OpcodeMap.value_injective {map : OpcodeMap} (h : map.legal = true) {m n : Mnemonic}
    (e : map.value m = map.value n) : m = n := by
  simp only [OpcodeMap.legal, Bool.and_eq_true] at h
  exact List.inj_on_of_nodup_map (nodup_of_distinct h.2) m.mem_all n.mem_all e

/-- Under a legal map the two high bits are the operand count. -/
theorem OpcodeMap.nops_value {map : OpcodeMap} (h : map.legal = true) (m : Mnemonic) :
    nops (map.value m) = m.operandCount := by
  simp only [OpcodeMap.legal, Bool.and_eq_true, List.all_eq_true, beq_iff_eq] at h
  exact h.1 m m.mem_all

theorem Config.legal_map {c : Config} (h : c.legal = true) : c.opcodeMap.legal = true := by
  simp only [Config.legal, Bool.and_eq_true] at h; exact h.2

theorem Config.legal_memSize {c : Config} (h : c.legal = true) : 3 ≤ c.memSize ∧ c.memSize ≤ 256 := by
  simp only [Config.legal, Bool.and_eq_true, decide_eq_true_eq] at h; exact h.1

/-- What the lookup found: an enabled mnemonic with this opcode value. -/
theorem Config.lookup_some {c : Config} {ir : Byte} {m : Mnemonic} (h : c.lookup ir = some m) :
    c.opcodeMap.value m = ir ∧ m ∈ c.enabled := by
  simpa [Config.lookup] using List.find?_some h

/-- The lookup fails exactly when no enabled mnemonic has this opcode value. -/
theorem Config.lookup_none_iff {c : Config} {ir : Byte} :
    c.lookup ir = none ↔ ∀ m ∈ c.enabled, c.opcodeMap.value m ≠ ir := by
  simp only [Config.lookup, List.find?_eq_none, Bool.and_eq_true, beq_iff_eq, List.contains_iff_mem]
  exact ⟨fun h m hm e => h m m.mem_all ⟨e, hm⟩, fun h m _ e => h m e.2 e.1⟩

/-- Under a legal map the lookup of an enabled mnemonic's opcode value finds that mnemonic. -/
theorem Config.lookup_value {c : Config} (h : c.opcodeMap.legal = true) {m : Mnemonic} (hm : m ∈ c.enabled) :
    c.lookup (c.opcodeMap.value m) = some m := by
  cases e : c.lookup (c.opcodeMap.value m) with
  | none => exact absurd rfl (Config.lookup_none_iff.mp e m hm)
  | some n => rw [OpcodeMap.value_injective h (Config.lookup_some e).1]

/-- What the decoder answers on the three fetched cells. -/
theorem decodeCells_cases (c : Config) (ir a b : Byte) :
    (∃ m, c.lookup ir = some m ∧ decodeCells c ir a b = .ok (m.instr a b)) ∨
    (c.lookup ir = none ∧ decodeCells c ir a b = .error (.unknownOpcode ir)) := by
  cases h : c.lookup ir with
  | some m => exact .inl ⟨m, rfl, by simp [decodeCells, h]⟩
  | none => exact .inr ⟨rfl, by simp [decodeCells, h]⟩

@[simp] theorem Mnemonic.instr_mnemonic (m : Mnemonic) (a b : Byte) : (m.instr a b).mnemonic = m := by
  cases m <;> rfl

end Sys2Proof
end

