-- ==== Sys2Proof/Laws/State.lean ====
section
/-! SUPPORT. One lemma per field per update of the state, so that no later proof unfolds a record update. -/

namespace Sys2Proof.Machine

variable (s : State)

/-! ## memWrite -/

@[simp] theorem State.memWrite_cfg (addr : Nat) (v : Byte) : (s.memWrite addr v).cfg = s.cfg := rfl
@[simp] theorem State.memWrite_regs (addr : Nat) (v : Byte) : (s.memWrite addr v).regs = s.regs := rfl
@[simp] theorem State.memWrite_pc (addr : Nat) (v : Byte) : (s.memWrite addr v).pc = s.pc := rfl
@[simp] theorem State.memWrite_fl (addr : Nat) (v : Byte) : (s.memWrite addr v).fl = s.fl := rfl
@[simp] theorem State.memWrite_mem (addr : Nat) (v : Byte) : (s.memWrite addr v).mem = Memory.write s.mem addr v := rfl
@[simp] theorem State.memWrite_stopped (addr : Nat) (v : Byte) : (s.memWrite addr v).stopped = s.stopped := rfl
@[simp] theorem State.memWrite_cause (addr : Nat) (v : Byte) : (s.memWrite addr v).cause = s.cause := rfl
@[simp] theorem State.memWrite_info (addr : Nat) (v : Byte) : (s.memWrite addr v).info = s.info := rfl
@[simp] theorem State.memWrite_out (addr : Nat) (v : Byte) : (s.memWrite addr v).out = s.out := rfl
@[simp] theorem State.memWrite_reg (addr : Nat) (v : Byte) (q : Reg) : (s.memWrite addr v).reg q = s.reg q := rfl
@[simp] theorem State.memWrite_flagE (addr : Nat) (v : Byte) : (s.memWrite addr v).flagE = s.flagE := rfl

/-! ## setReg -/

@[simp] theorem State.setReg_cfg (r : Reg) (v : Byte) : (s.setReg r v).cfg = s.cfg := rfl
@[simp] theorem State.setReg_regs (r : Reg) (v : Byte) : (s.setReg r v).regs = s.regs.set r.val v := rfl
@[simp] theorem State.setReg_pc (r : Reg) (v : Byte) : (s.setReg r v).pc = s.pc := rfl
@[simp] theorem State.setReg_fl (r : Reg) (v : Byte) : (s.setReg r v).fl = s.fl := rfl
@[simp] theorem State.setReg_mem (r : Reg) (v : Byte) : (s.setReg r v).mem = s.mem := rfl
@[simp] theorem State.setReg_stopped (r : Reg) (v : Byte) : (s.setReg r v).stopped = s.stopped := rfl
@[simp] theorem State.setReg_cause (r : Reg) (v : Byte) : (s.setReg r v).cause = s.cause := rfl
@[simp] theorem State.setReg_info (r : Reg) (v : Byte) : (s.setReg r v).info = s.info := rfl
@[simp] theorem State.setReg_out (r : Reg) (v : Byte) : (s.setReg r v).out = s.out := rfl
@[simp] theorem State.setReg_memRead (r : Reg) (v : Byte) (x : Nat) : (s.setReg r v).memRead x = s.memRead x := rfl
@[simp] theorem State.setReg_flagE (r : Reg) (v : Byte) : (s.setReg r v).flagE = s.flagE := rfl

/-! ## setPc -/

@[simp] theorem State.setPc_cfg (target : Nat) : (s.setPc target).cfg = s.cfg := rfl
@[simp] theorem State.setPc_regs (target : Nat) : (s.setPc target).regs = s.regs := rfl
@[simp] theorem State.setPc_pc (target : Nat) : (s.setPc target).pc = target := rfl
@[simp] theorem State.setPc_fl (target : Nat) : (s.setPc target).fl = s.fl := rfl
@[simp] theorem State.setPc_mem (target : Nat) : (s.setPc target).mem = s.mem := rfl
@[simp] theorem State.setPc_stopped (target : Nat) : (s.setPc target).stopped = s.stopped := rfl
@[simp] theorem State.setPc_cause (target : Nat) : (s.setPc target).cause = s.cause := rfl
@[simp] theorem State.setPc_info (target : Nat) : (s.setPc target).info = s.info := rfl
@[simp] theorem State.setPc_out (target : Nat) : (s.setPc target).out = s.out := rfl
@[simp] theorem State.setPc_reg (target : Nat) (q : Reg) : (s.setPc target).reg q = s.reg q := rfl
@[simp] theorem State.setPc_memRead (target : Nat) (x : Nat) : (s.setPc target).memRead x = s.memRead x := rfl
@[simp] theorem State.setPc_flagE (target : Nat) : (s.setPc target).flagE = s.flagE := rfl

/-! ## advance -/

@[simp] theorem State.advance_cfg (m : Mnemonic) : (s.advance m).cfg = s.cfg := rfl
@[simp] theorem State.advance_regs (m : Mnemonic) : (s.advance m).regs = s.regs := rfl
@[simp] theorem State.advance_pc (m : Mnemonic) : (s.advance m).pc = s.pc + nops (s.cfg.opcodeMap.value m) + 1 := rfl
@[simp] theorem State.advance_fl (m : Mnemonic) : (s.advance m).fl = s.fl := rfl
@[simp] theorem State.advance_mem (m : Mnemonic) : (s.advance m).mem = s.mem := rfl
@[simp] theorem State.advance_stopped (m : Mnemonic) : (s.advance m).stopped = s.stopped := rfl
@[simp] theorem State.advance_cause (m : Mnemonic) : (s.advance m).cause = s.cause := rfl
@[simp] theorem State.advance_info (m : Mnemonic) : (s.advance m).info = s.info := rfl
@[simp] theorem State.advance_out (m : Mnemonic) : (s.advance m).out = s.out := rfl
@[simp] theorem State.advance_reg (m : Mnemonic) (q : Reg) : (s.advance m).reg q = s.reg q := rfl
@[simp] theorem State.advance_memRead (m : Mnemonic) (x : Nat) : (s.advance m).memRead x = s.memRead x := rfl
@[simp] theorem State.advance_flagE (m : Mnemonic) : (s.advance m).flagE = s.flagE := rfl

/-! ## emit -/

@[simp] theorem State.emit_cfg (k : EventKind) (v : Byte) : (s.emit k v).cfg = s.cfg := rfl
@[simp] theorem State.emit_regs (k : EventKind) (v : Byte) : (s.emit k v).regs = s.regs := rfl
@[simp] theorem State.emit_pc (k : EventKind) (v : Byte) : (s.emit k v).pc = s.pc := rfl
@[simp] theorem State.emit_fl (k : EventKind) (v : Byte) : (s.emit k v).fl = s.fl := rfl
@[simp] theorem State.emit_mem (k : EventKind) (v : Byte) : (s.emit k v).mem = s.mem := rfl
@[simp] theorem State.emit_stopped (k : EventKind) (v : Byte) : (s.emit k v).stopped = s.stopped := rfl
@[simp] theorem State.emit_cause (k : EventKind) (v : Byte) : (s.emit k v).cause = s.cause := rfl
@[simp] theorem State.emit_info (k : EventKind) (v : Byte) : (s.emit k v).info = s.info := rfl
@[simp] theorem State.emit_out (k : EventKind) (v : Byte) : (s.emit k v).out = s.out ++ [⟨k, v⟩] := rfl
@[simp] theorem State.emit_reg (k : EventKind) (v : Byte) (q : Reg) : (s.emit k v).reg q = s.reg q := rfl
@[simp] theorem State.emit_memRead (k : EventKind) (v : Byte) (x : Nat) : (s.emit k v).memRead x = s.memRead x := rfl
@[simp] theorem State.emit_flagE (k : EventKind) (v : Byte) : (s.emit k v).flagE = s.flagE := rfl

/-! ## setFlagE -/

@[simp] theorem State.setFlagE_cfg (b : Bool) : (s.setFlagE b).cfg = s.cfg := rfl
@[simp] theorem State.setFlagE_regs (b : Bool) : (s.setFlagE b).regs = s.regs := rfl
@[simp] theorem State.setFlagE_pc (b : Bool) : (s.setFlagE b).pc = s.pc := rfl
@[simp] theorem State.setFlagE_fl (b : Bool) : (s.setFlagE b).fl = if b then s.fl ||| 0x01#8 else s.fl &&& 0xFE#8 := rfl
@[simp] theorem State.setFlagE_mem (b : Bool) : (s.setFlagE b).mem = s.mem := rfl
@[simp] theorem State.setFlagE_stopped (b : Bool) : (s.setFlagE b).stopped = s.stopped := rfl
@[simp] theorem State.setFlagE_cause (b : Bool) : (s.setFlagE b).cause = s.cause := rfl
@[simp] theorem State.setFlagE_info (b : Bool) : (s.setFlagE b).info = s.info := rfl
@[simp] theorem State.setFlagE_out (b : Bool) : (s.setFlagE b).out = s.out := rfl
@[simp] theorem State.setFlagE_reg (b : Bool) (q : Reg) : (s.setFlagE b).reg q = s.reg q := rfl
@[simp] theorem State.setFlagE_memRead (b : Bool) (x : Nat) : (s.setFlagE b).memRead x = s.memRead x := rfl

/-! ## raise -/

@[simp] theorem State.raise_cfg (stop : Stop) : (s.raise stop).cfg = s.cfg := rfl
@[simp] theorem State.raise_regs (stop : Stop) : (s.raise stop).regs = s.regs := rfl
@[simp] theorem State.raise_pc (stop : Stop) : (s.raise stop).pc = s.pc := rfl
@[simp] theorem State.raise_fl (stop : Stop) : (s.raise stop).fl = s.fl := rfl
@[simp] theorem State.raise_mem (stop : Stop) : (s.raise stop).mem = s.mem := rfl
@[simp] theorem State.raise_stopped (stop : Stop) : (s.raise stop).stopped = true := rfl
@[simp] theorem State.raise_cause (stop : Stop) : (s.raise stop).cause = stop.cause := rfl
@[simp] theorem State.raise_info (stop : Stop) : (s.raise stop).info = stop.info := rfl
@[simp] theorem State.raise_out (stop : Stop) : (s.raise stop).out = s.out := rfl
@[simp] theorem State.raise_reg (stop : Stop) (q : Reg) : (s.raise stop).reg q = s.reg q := rfl
@[simp] theorem State.raise_memRead (stop : Stop) (x : Nat) : (s.raise stop).memRead x = s.memRead x := rfl
@[simp] theorem State.raise_flagE (stop : Stop) : (s.raise stop).flagE = s.flagE := rfl

/-! ## The updates that change what an accessor reads -/

@[simp] theorem State.setReg_reg_self (r : Reg) (v : Byte) : (s.setReg r v).reg r = v := by
  simp [State.setReg, State.reg]

theorem State.setReg_reg_ne {r q : Reg} (v : Byte) (h : r ≠ q) : (s.setReg r v).reg q = s.reg q := by
  have : r.val ≠ q.val := fun e => h (Fin.ext e)
  simp [State.setReg, State.reg, this]

theorem State.setReg_reg (r q : Reg) (v : Byte) :
    (s.setReg r v).reg q = if r = q then v else s.reg q := by
  split
  · subst_vars; simp
  · exact State.setReg_reg_ne s v ‹_›

@[simp] theorem State.setFlagE_flagE (b : Bool) : (s.setFlagE b).flagE = b := by
  cases b <;> simp [State.setFlagE, State.flagE]

theorem State.flagE_eq_of_fl_eq {s t : State} (h : t.fl = s.fl) : t.flagE = s.flagE := by
  simp [State.flagE, h]

/-- A flags register of value 0 or 1 is decided by its equality bit (R32). -/
theorem State.fl_setFlagE_of_live (b : Bool) (h : s.fl = 0#8 ∨ s.fl = 1#8) :
    (s.setFlagE b).fl = if b then 1#8 else 0#8 := by
  rcases h with h | h <;> cases b <;> simp [State.setFlagE, h]

/-! ## The stack pointer's updates are register updates (R22) -/

theorem State.decSp_eq : s.decSp = s.setReg sp (s.reg sp - 1#8) := rfl

theorem State.incSp_eq : s.incSp = s.setReg sp (s.reg sp + 1#8) := rfl

end Sys2Proof.Machine
end

