-- ==== Sys2Proof/Laws/Ops.lean ====
section
/-! SUPPORT. Each shared operation of the meanings and of the step, said once: everything it can answer. -/

namespace Sys2Proof.Machine

/-! ## The checks -/

theorem requireReg_of_lt {k : Byte} (h : k.toNat < 8) (s : State) (go : Reg → Result) :
    requireReg k s go = go ⟨k.toNat, h⟩ := by simp [requireReg, h]

theorem requireReg_of_ge {k : Byte} (h : 8 ≤ k.toNat) (s : State) (go : Reg → Result) :
    requireReg k s go = .next (s.raise (Stop.regOutOfRange k)) := by
  simp [requireReg, Nat.not_lt.mpr h]

/-- A register check that answers a next state: it went on, or it raised. -/
theorem requireReg_next {k : Byte} {s t : State} {go : Reg → Result} (h : requireReg k s go = .next t) :
    (∃ hk : k.toNat < 8, go ⟨k.toNat, hk⟩ = .next t) ∨
    (8 ≤ k.toNat ∧ t = s.raise (Stop.regOutOfRange k)) := by
  by_cases hk : k.toNat < 8
  · exact .inl ⟨hk, by rwa [requireReg_of_lt hk] at h⟩
  · rw [requireReg_of_ge (Nat.not_lt.mp hk)] at h
    exact .inr ⟨Nat.not_lt.mp hk, by injection h with h; exact h.symm⟩

theorem requireMem_of_lt {addr : Byte} {s : State} (h : addr.toNat < s.cfg.memSize) (go : Result) :
    requireMem addr s go = go := by simp [requireMem, h]

theorem requireMem_of_ge {addr : Byte} {s : State} (h : s.cfg.memSize ≤ addr.toNat) (go : Result) :
    requireMem addr s go = .next (s.raise (Stop.memOutOfRange addr)) := by
  simp [requireMem, Nat.not_lt.mpr h]

/-- An address check that answers a next state: it went on, or it raised. -/
theorem requireMem_next {addr : Byte} {s t : State} {go : Result} (h : requireMem addr s go = .next t) :
    (addr.toNat < s.cfg.memSize ∧ go = .next t) ∨
    (s.cfg.memSize ≤ addr.toNat ∧ t = s.raise (Stop.memOutOfRange addr)) := by
  by_cases hk : addr.toNat < s.cfg.memSize
  · exact .inl ⟨hk, by rwa [requireMem_of_lt hk] at h⟩
  · rw [requireMem_of_ge (Nat.not_lt.mp hk)] at h
    exact .inr ⟨Nat.not_lt.mp hk, by injection h with h; exact h.symm⟩

theorem requireReturnAddress_of_le {addr : Nat} (h : addr ≤ 255) (go : Byte → Result) :
    requireReturnAddress addr go = go (BitVec.ofNat 8 addr) := by simp [requireReturnAddress, h]

theorem requireReturnAddress_next {addr : Nat} {t : State} {go : Byte → Result}
    (h : requireReturnAddress addr go = .next t) : addr ≤ 255 ∧ go (BitVec.ofNat 8 addr) = .next t := by
  unfold requireReturnAddress at h
  split at h
  · exact ⟨‹_›, h⟩
  · cases h

/-! ## The end of an instruction -/

theorem finish_of_pcSet {m : Mnemonic} (h : m.pcSet = true) (s : State) : finish m s = .next s := by
  simp [finish, h]

/-- Under a legal map the auto-advance adds the operand count and one (R115, R82). -/
theorem finish_of_advance {m : Mnemonic} (h : m.pcSet = false) {s : State} (hl : s.cfg.opcodeMap.legal = true) :
    finish m s = .next (s.setPc (s.pc + m.operandCount + 1)) := by
  simp [finish, h, State.advance, OpcodeMap.nops_value hl]

theorem finish_next {m : Mnemonic} {s t : State} (h : finish m s = .next t) :
    t = if m.pcSet then s else s.advance m := by
  unfold finish at h; injection h with h; exact h.symm

/-! ## The ALU and the two jumps -/

/-- Everything an ALU instruction of one of the three operations can do. -/
theorem execAlu_next {m : Mnemonic} {op : AluOp} (hop : op ≠ .other) {a b : Byte} {s t : State}
    (h : execAlu m op a b s = .next t) :
    (8 ≤ a.toNat ∧ t = s.raise (Stop.regOutOfRange a)) ∨
    (a.toNat < 8 ∧ 8 ≤ b.toNat ∧ t = s.raise (Stop.regOutOfRange b)) ∨
    (∃ (ha : a.toNat < 8) (hb : b.toNat < 8) (u : State),
      aluApply op ⟨a.toNat, ha⟩ ⟨b.toNat, hb⟩ s = .ok u ∧ finish m u = .next t) := by
  rcases requireReg_next h with ⟨ha, h⟩ | h
  · rcases requireReg_next h with ⟨hb, h⟩ | h
    · refine .inr (.inr ⟨ha, hb, ?_⟩)
      cases op with
      | add => exact ⟨_, rfl, h⟩
      | mul => exact ⟨_, rfl, h⟩
      | cmp => exact ⟨_, rfl, h⟩
      | other => exact absurd rfl hop
    · exact .inr (.inl ⟨ha, h⟩)
  · exact .inl h

theorem jumpIf_next {m : Mnemonic} {taken : Bool} {a : Byte} {s t : State} (h : jumpIf m taken a s = .next t) :
    (8 ≤ a.toNat ∧ t = s.raise (Stop.regOutOfRange a)) ∨
    (∃ ha : a.toNat < 8,
      finish m (s.setPc (if taken then (s.reg ⟨a.toNat, ha⟩).toNat else s.pc + 2)) = .next t) := by
  rcases requireReg_next h with ⟨ha, h⟩ | h
  · exact .inr ⟨ha, h⟩
  · exact .inl h

/-! ## The step -/

/-- What the fetch answers, by where the program counter stands; the fetch stop's address is always `MEMSIZE` (R112). -/
theorem fetch_cases (s : State) :
    (s.cfg.memSize ≤ s.pc ∧ fetch s = .error (Stop.pcOutOfRange s.pc)) ∨
    (s.pc < s.cfg.memSize ∧ s.cfg.memSize ≤ s.pc + 2 ∧ fetch s = .error (Stop.fetchOutOfRange s.cfg.memSize)) ∨
    (s.pc + 2 < s.cfg.memSize ∧ fetch s = .ok (s.memRead s.pc, s.memRead (s.pc + 1), s.memRead (s.pc + 2))) := by
  unfold fetch
  split
  · exact .inl ⟨‹_›, rfl⟩
  · split
    · refine .inr (.inl ⟨by omega, by omega, ?_⟩)
      rw [show s.pc + 1 = s.cfg.memSize by omega]
    · split
      · refine .inr (.inl ⟨by omega, by omega, ?_⟩)
        rw [show s.pc + 2 = s.cfg.memSize by omega]
      · exact .inr (.inr ⟨by omega, rfl⟩)

/-- What the plan of a running machine under a legal configuration is. -/
theorem plan_cases {s : State} (hl : s.cfg.legal = true) (hr : s.stopped = false) :
    (s.cfg.memSize ≤ s.pc ∧ plan s = .stop (Stop.pcOutOfRange s.pc)) ∨
    (s.pc < s.cfg.memSize ∧ s.cfg.memSize ≤ s.pc + 2 ∧ plan s = .stop (Stop.fetchOutOfRange s.cfg.memSize)) ∨
    (s.pc + 2 < s.cfg.memSize ∧ s.cfg.lookup (s.memRead s.pc) = none ∧
      plan s = .stop (Stop.unknownOpcode (s.memRead s.pc))) ∨
    (∃ m, s.pc + 2 < s.cfg.memSize ∧ s.cfg.lookup (s.memRead s.pc) = some m ∧
      plan s = .run (m.instr (s.memRead (s.pc + 1)) (s.memRead (s.pc + 2)))) := by
  rcases fetch_cases s with ⟨h, e⟩ | ⟨h, h', e⟩ | ⟨h, e⟩
  · exact .inl ⟨h, by simp [plan, hl, hr, e]⟩
  · exact .inr (.inl ⟨h, h', by simp [plan, hl, hr, e]⟩)
  · rcases decodeCells_cases s.cfg (s.memRead s.pc) (s.memRead (s.pc + 1)) (s.memRead (s.pc + 2)) with
      ⟨m, hm, d⟩ | ⟨hm, d⟩
    · exact .inr (.inr (.inr ⟨m, h, hm, by simp [plan, hl, hr, e, d]⟩))
    · exact .inr (.inr (.inl ⟨h, hm, by simp [plan, hl, hr, e, d]⟩))

theorem plan_of_stopped {s : State} (hl : s.cfg.legal = true) (hs : s.stopped = true) : plan s = .idle := by
  simp [plan, hl, hs]

theorem plan_of_illegal {s : State} (hl : s.cfg.legal = false) : plan s = .refuse .illegalConfiguration := by
  simp [plan, hl]

theorem step_of_run {s : State} {i : Instr} (h : plan s = .run i) : step s = exec i s := by simp [step, h]

theorem step_of_stop {s : State} {stop : Stop} (h : plan s = .stop stop) : step s = .next (s.raise stop) := by
  simp [step, h]

theorem step_of_idle {s : State} (h : plan s = .idle) : step s = .next s := by simp [step, h]

/-- Everything a step that answers a next state can have done. -/
theorem step_next {s t : State} (h : step s = .next t) :
    s.cfg.legal = true ∧
    ((s.stopped = true ∧ t = s) ∨
     (s.stopped = false ∧ s.cfg.memSize ≤ s.pc ∧ t = s.raise (Stop.pcOutOfRange s.pc)) ∨
     (s.stopped = false ∧ s.pc < s.cfg.memSize ∧ s.cfg.memSize ≤ s.pc + 2 ∧
       t = s.raise (Stop.fetchOutOfRange s.cfg.memSize)) ∨
     (s.stopped = false ∧ s.pc + 2 < s.cfg.memSize ∧ s.cfg.lookup (s.memRead s.pc) = none ∧
       t = s.raise (Stop.unknownOpcode (s.memRead s.pc))) ∨
     (∃ m, s.stopped = false ∧ s.pc + 2 < s.cfg.memSize ∧ s.cfg.lookup (s.memRead s.pc) = some m ∧
       exec (m.instr (s.memRead (s.pc + 1)) (s.memRead (s.pc + 2))) s = .next t)) := by
  cases hl : s.cfg.legal with
  | false => simp [step, plan_of_illegal hl] at h
  | true =>
    refine ⟨rfl, ?_⟩
    cases hs : s.stopped with
    | true =>
      rw [step_of_idle (plan_of_stopped hl hs)] at h
      injection h with h
      exact .inl ⟨rfl, h.symm⟩
    | false =>
      rcases plan_cases hl hs with ⟨h1, e⟩ | ⟨h1, h2, e⟩ | ⟨h1, h2, e⟩ | ⟨m, h1, h2, e⟩
      · rw [step_of_stop e] at h; injection h with h
        exact .inr (.inl ⟨rfl, h1, h.symm⟩)
      · rw [step_of_stop e] at h; injection h with h
        exact .inr (.inr (.inl ⟨rfl, h1, h2, h.symm⟩))
      · rw [step_of_stop e] at h; injection h with h
        exact .inr (.inr (.inr (.inl ⟨rfl, h1, h2, h.symm⟩)))
      · rw [step_of_run e] at h
        exact .inr (.inr (.inr (.inr ⟨m, rfl, h1, h2, h⟩)))

end Sys2Proof.Machine
end

