-- ==== Sys2Proof/Laws/Exec.lean ====
section
/-! SUPPORT. Each instruction said once: everything it can have done when it answers a next state. The stops come first,
in their order (R220); the last case is the whole effect. -/

namespace Sys2Proof.Machine

variable {s t : State} {a b : Byte}

theorem execHlt_next (h : exec .hlt s = .next t) : t = s.raise (Stop.halt s.pc) := by
  injection h with h; exact h.symm

theorem execLdi_next (h : exec (.ldi a b) s = .next t) :
    (8 ≤ a.toNat ∧ t = s.raise (Stop.regOutOfRange a)) ∨
    (∃ ha : a.toNat < 8, t = (s.setReg ⟨a.toNat, ha⟩ b).advance .ldi) := by
  simp only [exec, execLdi] at h
  rcases requireReg_next h with ⟨ha, h⟩ | h
  · exact .inr ⟨ha, finish_next h⟩
  · exact .inl h

theorem execPrn_next (h : exec (.prn a) s = .next t) :
    (8 ≤ a.toNat ∧ t = s.raise (Stop.regOutOfRange a)) ∨
    (∃ ha : a.toNat < 8, t = (s.emit .num (s.reg ⟨a.toNat, ha⟩)).advance .prn) := by
  simp only [exec, execPrn] at h
  rcases requireReg_next h with ⟨ha, h⟩ | h
  · exact .inr ⟨ha, finish_next h⟩
  · exact .inl h

theorem execPra_next (h : exec (.pra a) s = .next t) :
    (8 ≤ a.toNat ∧ t = s.raise (Stop.regOutOfRange a)) ∨
    (∃ ha : a.toNat < 8, t = (s.emit .chr (s.reg ⟨a.toNat, ha⟩)).advance .pra) := by
  simp only [exec, execPra] at h
  rcases requireReg_next h with ⟨ha, h⟩ | h
  · exact .inr ⟨ha, finish_next h⟩
  · exact .inl h

theorem execAdd_next (h : exec (.add a b) s = .next t) :
    (8 ≤ a.toNat ∧ t = s.raise (Stop.regOutOfRange a)) ∨
    (a.toNat < 8 ∧ 8 ≤ b.toNat ∧ t = s.raise (Stop.regOutOfRange b)) ∨
    (∃ (ha : a.toNat < 8) (hb : b.toNat < 8),
      t = (s.setReg ⟨a.toNat, ha⟩ (addByte (s.reg ⟨a.toNat, ha⟩) (s.reg ⟨b.toNat, hb⟩))).advance .add) := by
  simp only [exec, execAdd] at h
  rcases execAlu_next (by decide) h with h | h | ⟨ha, hb, u, hu, h⟩
  · exact .inl h
  · exact .inr (.inl h)
  · injection hu with hu
    exact .inr (.inr ⟨ha, hb, hu ▸ finish_next h⟩)

theorem execMul_next (h : exec (.mul a b) s = .next t) :
    (8 ≤ a.toNat ∧ t = s.raise (Stop.regOutOfRange a)) ∨
    (a.toNat < 8 ∧ 8 ≤ b.toNat ∧ t = s.raise (Stop.regOutOfRange b)) ∨
    (∃ (ha : a.toNat < 8) (hb : b.toNat < 8),
      t = (s.setReg ⟨a.toNat, ha⟩ (mulByte (s.reg ⟨a.toNat, ha⟩) (s.reg ⟨b.toNat, hb⟩))).advance .mul) := by
  simp only [exec, execMul] at h
  rcases execAlu_next (by decide) h with h | h | ⟨ha, hb, u, hu, h⟩
  · exact .inl h
  · exact .inr (.inl h)
  · injection hu with hu
    exact .inr (.inr ⟨ha, hb, hu ▸ finish_next h⟩)

theorem execCmp_next (h : exec (.cmp a b) s = .next t) :
    (8 ≤ a.toNat ∧ t = s.raise (Stop.regOutOfRange a)) ∨
    (a.toNat < 8 ∧ 8 ≤ b.toNat ∧ t = s.raise (Stop.regOutOfRange b)) ∨
    (∃ (ha : a.toNat < 8) (hb : b.toNat < 8),
      t = (s.setFlagE (s.reg ⟨a.toNat, ha⟩ == s.reg ⟨b.toNat, hb⟩)).advance .cmp) := by
  simp only [exec, execCmp] at h
  rcases execAlu_next (by decide) h with h | h | ⟨ha, hb, u, hu, h⟩
  · exact .inl h
  · exact .inr (.inl h)
  · injection hu with hu
    exact .inr (.inr ⟨ha, hb, hu ▸ finish_next h⟩)

theorem execPush_next (h : exec (.push a) s = .next t) :
    (8 ≤ a.toNat ∧ t = s.raise (Stop.regOutOfRange a)) ∨
    (a.toNat < 8 ∧ s.cfg.memSize ≤ s.pushAddr.toNat ∧ t = s.raise (Stop.memOutOfRange s.pushAddr)) ∨
    (∃ ha : a.toNat < 8, s.pushAddr.toNat < s.cfg.memSize ∧
      t = (s.decSp.memWrite s.pushAddr.toNat (s.decSp.reg ⟨a.toNat, ha⟩)).advance .push) := by
  simp only [exec, execPush] at h
  rcases requireReg_next h with ⟨ha, h⟩ | h
  · rcases requireMem_next h with ⟨hm, h⟩ | h
    · refine .inr (.inr ⟨ha, hm, ?_⟩)
      have := finish_next h
      rwa [show s.decSp.reg sp = s.pushAddr by simp [State.decSp, State.pushAddr]] at this
    · exact .inr (.inl ⟨ha, h⟩)
  · exact .inl h

theorem execPop_next (h : exec (.pop a) s = .next t) :
    (8 ≤ a.toNat ∧ t = s.raise (Stop.regOutOfRange a)) ∨
    (a.toNat < 8 ∧ s.cfg.memSize ≤ s.popAddr.toNat ∧ t = s.raise (Stop.memOutOfRange s.popAddr)) ∨
    (∃ ha : a.toNat < 8, s.popAddr.toNat < s.cfg.memSize ∧
      t = (s.setReg ⟨a.toNat, ha⟩ (s.memRead s.popAddr.toNat)).incSp.advance .pop) := by
  simp only [exec, execPop] at h
  rcases requireReg_next h with ⟨ha, h⟩ | h
  · rcases requireMem_next h with ⟨hm, h⟩ | h
    · exact .inr (.inr ⟨ha, hm, finish_next h⟩)
    · exact .inr (.inl ⟨ha, h⟩)
  · exact .inl h

theorem execCall_next (h : exec (.call a) s = .next t) :
    (8 ≤ a.toNat ∧ t = s.raise (Stop.regOutOfRange a)) ∨
    (a.toNat < 8 ∧ s.cfg.memSize ≤ s.pushAddr.toNat ∧ t = s.raise (Stop.memOutOfRange s.pushAddr)) ∨
    (∃ ha : a.toNat < 8, s.pushAddr.toNat < s.cfg.memSize ∧ s.pc + 2 ≤ 255 ∧
      t = (s.decSp.memWrite s.pushAddr.toNat (BitVec.ofNat 8 (s.pc + 2))).setPc
        (s.decSp.reg ⟨a.toNat, ha⟩).toNat) := by
  simp only [exec, execCall] at h
  rcases requireReg_next h with ⟨ha, h⟩ | h
  · rcases requireMem_next h with ⟨hm, h⟩ | h
    · obtain ⟨hp, h⟩ := requireReturnAddress_next h
      refine .inr (.inr ⟨ha, hm, hp, ?_⟩)
      have := finish_next h
      rwa [show s.decSp.reg sp = s.pushAddr by simp [State.decSp, State.pushAddr]] at this
    · exact .inr (.inl ⟨ha, h⟩)
  · exact .inl h

theorem execRet_next (h : exec .ret s = .next t) :
    (s.cfg.memSize ≤ s.popAddr.toNat ∧ t = s.raise (Stop.memOutOfRange s.popAddr)) ∨
    (s.popAddr.toNat < s.cfg.memSize ∧ t = (s.setPc (s.memRead s.popAddr.toNat).toNat).incSp) := by
  simp only [exec, execRet] at h
  rcases requireMem_next h with ⟨hm, h⟩ | h
  · exact .inr ⟨hm, finish_next h⟩
  · exact .inl h

theorem execJmp_next (h : exec (.jmp a) s = .next t) :
    (8 ≤ a.toNat ∧ t = s.raise (Stop.regOutOfRange a)) ∨
    (∃ ha : a.toNat < 8, t = s.setPc (s.reg ⟨a.toNat, ha⟩).toNat) := by
  simp only [exec, execJmp] at h
  rcases requireReg_next h with ⟨ha, h⟩ | h
  · exact .inr ⟨ha, finish_next h⟩
  · exact .inl h

theorem execJeq_next (h : exec (.jeq a) s = .next t) :
    (8 ≤ a.toNat ∧ t = s.raise (Stop.regOutOfRange a)) ∨
    (∃ ha : a.toNat < 8, t = s.setPc (if s.flagE then (s.reg ⟨a.toNat, ha⟩).toNat else s.pc + 2)) := by
  simp only [exec, execJeq] at h
  rcases jumpIf_next h with h | ⟨ha, h⟩
  · exact .inl h
  · exact .inr ⟨ha, finish_next h⟩

theorem execJne_next (h : exec (.jne a) s = .next t) :
    (8 ≤ a.toNat ∧ t = s.raise (Stop.regOutOfRange a)) ∨
    (∃ ha : a.toNat < 8, t = s.setPc (if !s.flagE then (s.reg ⟨a.toNat, ha⟩).toNat else s.pc + 2)) := by
  simp only [exec, execJne] at h
  rcases jumpIf_next h with h | ⟨ha, h⟩
  · exact .inl h
  · exact .inr ⟨ha, finish_next h⟩

theorem execSt_next (h : exec (.st a b) s = .next t) :
    (8 ≤ a.toNat ∧ t = s.raise (Stop.regOutOfRange a)) ∨
    (a.toNat < 8 ∧ 8 ≤ b.toNat ∧ t = s.raise (Stop.regOutOfRange b)) ∨
    (∃ (ha : a.toNat < 8), b.toNat < 8 ∧ s.cfg.memSize ≤ (s.reg ⟨a.toNat, ha⟩).toNat ∧
      t = s.raise (Stop.memOutOfRange (s.reg ⟨a.toNat, ha⟩))) ∨
    (∃ (ha : a.toNat < 8) (hb : b.toNat < 8), (s.reg ⟨a.toNat, ha⟩).toNat < s.cfg.memSize ∧
      t = (s.memWrite (s.reg ⟨a.toNat, ha⟩).toNat (s.reg ⟨b.toNat, hb⟩)).advance .st) := by
  simp only [exec, execSt] at h
  rcases requireReg_next h with ⟨ha, h⟩ | h
  · rcases requireReg_next h with ⟨hb, h⟩ | h
    · rcases requireMem_next h with ⟨hm, h⟩ | h
      · exact .inr (.inr (.inr ⟨ha, hb, hm, finish_next h⟩))
      · exact .inr (.inr (.inl ⟨ha, hb, h⟩))
    · exact .inr (.inl ⟨ha, h⟩)
  · exact .inl h

end Sys2Proof.Machine
end

