-- ==== Sys2Proof/Laws/Memory.lean ====
section
/-! SUPPORT. Memory: a read after a write, and the canonical form that every operation keeps (R52, R53). -/

namespace Sys2Proof.Machine

theorem Memory.read_insert_self (m : Memory) (a : Nat) (v : Byte) (h : ∀ c ∈ m, c.1 ≠ a) :
    Memory.read (Memory.insert m a v) a = v := by
  induction m with
  | nil => simp [Memory.insert, Memory.read]
  | cons c rest ih =>
    obtain ⟨k, u⟩ := c
    have hk : k ≠ a := h (k, u) (by simp)
    simp only [Memory.insert]
    split
    · simp [Memory.read]
    · simpa [Memory.read, hk] using ih fun c hc => h c (by simp [hc])

theorem Memory.read_insert_ne (m : Memory) {a b : Nat} (v : Byte) (h : a ≠ b) :
    Memory.read (Memory.insert m a v) b = Memory.read m b := by
  induction m with
  | nil => simp [Memory.insert, Memory.read, h]
  | cons c rest ih =>
    obtain ⟨k, u⟩ := c
    simp only [Memory.insert]
    split
    · simp [Memory.read, h]
    · simp [Memory.read, ih]

theorem Memory.read_filter_self (m : Memory) (a : Nat) :
    Memory.read (m.filter fun c => c.1 != a) a = 0#8 := by
  induction m with
  | nil => rfl
  | cons c rest ih =>
    obtain ⟨k, u⟩ := c
    by_cases hk : k = a <;> simp [Memory.read, hk, ih]

theorem Memory.read_filter_ne (m : Memory) {a b : Nat} (h : a ≠ b) :
    Memory.read (m.filter fun c => c.1 != a) b = Memory.read m b := by
  induction m with
  | nil => rfl
  | cons c rest ih =>
    obtain ⟨k, u⟩ := c
    by_cases hk : k = a
    · subst hk; simp [Memory.read, h, ih]
    · simp [hk, Memory.read, ih]

/-- The value written is the value read. -/
@[simp] theorem Memory.read_write_self (m : Memory) (a : Nat) (v : Byte) :
    Memory.read (Memory.write m a v) a = v := by
  unfold Memory.write
  split
  · simp_all [Memory.read_filter_self]
  · exact Memory.read_insert_self _ _ _ (by simp)

/-- A write leaves every other cell alone. -/
theorem Memory.read_write_ne (m : Memory) {a b : Nat} (v : Byte) (h : a ≠ b) :
    Memory.read (Memory.write m a v) b = Memory.read m b := by
  unfold Memory.write
  split
  · exact Memory.read_filter_ne m h
  · rw [Memory.read_insert_ne _ v h, Memory.read_filter_ne m h]

theorem Memory.read_write (m : Memory) (a b : Nat) (v : Byte) :
    Memory.read (Memory.write m a v) b = if a = b then v else Memory.read m b := by
  split
  · subst_vars; simp
  · exact Memory.read_write_ne m v ‹_›

@[simp] theorem State.memWrite_memRead_self (s : State) (a : Nat) (v : Byte) : (s.memWrite a v).memRead a = v := by
  simp [State.memRead, State.memWrite]

theorem State.memWrite_memRead (s : State) (a b : Nat) (v : Byte) :
    (s.memWrite a v).memRead b = if a = b then v else s.memRead b :=
  Memory.read_write s.mem a b v

theorem Memory.mem_insert {m : Memory} {a : Nat} {v : Byte} {c : Host.Cell} :
    c ∈ Memory.insert m a v ↔ c = (a, v) ∨ c ∈ m := by
  induction m with
  | nil => simp [Memory.insert]
  | cons d rest ih =>
    obtain ⟨k, u⟩ := d
    simp only [Memory.insert]
    split
    · simp
    · simp only [List.mem_cons, ih]; tauto

/-- What a write can list: the cell written, and cells listed before. -/
theorem Memory.mem_write {m : Memory} {a : Nat} {v : Byte} {c : Host.Cell} (h : c ∈ Memory.write m a v) :
    c = (a, v) ∨ c ∈ m := by
  unfold Memory.write at h
  split at h
  · exact .inr (List.mem_of_mem_filter h)
  · rcases Memory.mem_insert.mp h with h | h
    · exact .inl h
    · exact .inr (List.mem_of_mem_filter h)

theorem Memory.insert_sorted {m : Memory} {a : Nat} {v : Byte}
    (hm : m.Pairwise fun c d => c.1 < d.1) (ha : ∀ c ∈ m, c.1 ≠ a) :
    (Memory.insert m a v).Pairwise fun c d => c.1 < d.1 := by
  induction m with
  | nil => simp [Memory.insert]
  | cons d rest ih =>
    obtain ⟨k, u⟩ := d
    obtain ⟨hk, hrest⟩ := List.pairwise_cons.mp hm
    have hne : k ≠ a := ha (k, u) (by simp)
    simp only [Memory.insert]
    split
    case isTrue hlt =>
      refine List.pairwise_cons.mpr ⟨fun c hc => ?_, hm⟩
      rcases List.mem_cons.mp hc with rfl | hc
      · exact hlt
      · exact lt_trans hlt (hk c hc)
    case isFalse hge =>
      refine List.pairwise_cons.mpr ⟨fun c hc => ?_, ih hrest fun c hc => ha c (by simp [hc])⟩
      rcases Memory.mem_insert.mp hc with rfl | hc
      · show k < a
        omega
      · exact hk c hc

/-- A write keeps the canonical form. -/
theorem Memory.write_wf {m : Memory} (a : Nat) (v : Byte) (h : Memory.wf m) : Memory.wf (Memory.write m a v) := by
  have hf : (m.filter fun c => c.1 != a).Pairwise fun c d => c.1 < d.1 := h.1.filter _
  refine ⟨?_, fun c hc => ?_⟩
  · unfold Memory.write
    split
    · exact hf
    · exact Memory.insert_sorted hf (by simp)
  · by_cases hv : v = 0#8
    · have : c ∈ m := by
        have : c ∈ m.filter fun c => c.1 != a := by simpa [Memory.write, hv] using hc
        exact List.mem_of_mem_filter this
      exact h.2 c this
    · rcases Memory.mem_write hc with rfl | hc
      · exact hv
      · exact h.2 c hc

theorem State.memWrite_wf (s : State) (a : Nat) (v : Byte) (h : Memory.wf s.mem) : Memory.wf (s.memWrite a v).mem :=
  Memory.write_wf a v h

theorem State.placeAtPc_wf (s : State) (ir a b : Byte) (h : Memory.wf s.mem) :
    Memory.wf (s.placeAtPc ir a b).mem :=
  State.memWrite_wf _ _ _ (State.memWrite_wf _ _ _ (State.memWrite_wf _ _ _ h))

theorem State.loadFrom_wf (img : List Nat) (s : State) (a : Nat) (h : Memory.wf s.mem) :
    Memory.wf (s.loadFrom a img).mem := by
  induction img generalizing s a with
  | nil => exact h
  | cons v rest ih => exact ih _ _ (State.memWrite_wf s a _ h)

theorem State.resetIn_wf (c : Config) : Memory.wf (State.resetIn c).mem := by
  simp [State.resetIn, Memory.wf]

theorem State.reset_wf : Memory.wf State.reset.mem := State.resetIn_wf Config.full

/-- A cell below every listed address reads 0x00. -/
theorem Memory.read_of_lt {m : Memory} {a : Nat} (h : ∀ c ∈ m, a < c.1) : Memory.read m a = 0#8 := by
  induction m with
  | nil => rfl
  | cons d rest ih =>
    obtain ⟨k, u⟩ := d
    have : a < k := h (k, u) (by simp)
    simpa [Memory.read, show k ≠ a by omega] using ih fun c hc => h c (by simp [hc])

/-- Equal memories are equal data: two canonical lists that read alike are the same list. -/
theorem Memory.eq_of_read_eq {m n : Memory} (hm : Memory.wf m) (hn : Memory.wf n)
    (h : ∀ a, Memory.read m a = Memory.read n a) : m = n := by
  induction m generalizing n with
  | nil =>
    cases n with
    | nil => rfl
    | cons d rest =>
      have := h d.1
      exact absurd (by simpa [Memory.read] using this.symm) (hn.2 d (by simp))
  | cons c rest ih =>
    obtain ⟨k, u⟩ := c
    cases n with
    | nil => exact absurd (by simpa [Memory.read] using h k) (hm.2 (k, u) (by simp))
    | cons d rest' =>
      obtain ⟨k', u'⟩ := d
      obtain ⟨hk, hrest⟩ := List.pairwise_cons.mp hm.1
      obtain ⟨hk', hrest'⟩ := List.pairwise_cons.mp hn.1
      have hu : u ≠ 0#8 := hm.2 (k, u) (by simp)
      have hu' : u' ≠ 0#8 := hn.2 (k', u') (by simp)
      have hkk : k = k' := by
        by_contra hne
        rcases Nat.lt_or_gt_of_ne hne with hlt | hlt
        · have := h k
          rw [Memory.read_of_lt (m := (k', u') :: rest') (a := k) (by
            intro c hc
            rcases List.mem_cons.mp hc with rfl | hc
            · exact hlt
            · exact lt_trans hlt (hk' c hc))] at this
          exact hu (by simpa [Memory.read] using this)
        · have := h k'
          rw [Memory.read_of_lt (m := (k, u) :: rest) (a := k') (by
            intro c hc
            rcases List.mem_cons.mp hc with rfl | hc
            · exact hlt
            · exact lt_trans hlt (hk c hc))] at this
          exact hu' (by simpa [Memory.read] using this.symm)
      subst hkk
      have huu : u = u' := by simpa [Memory.read] using h k
      subst huu
      have : rest = rest' := by
        refine ih ⟨hrest, fun c hc => hm.2 c (by simp [hc])⟩ ⟨hrest', fun c hc => hn.2 c (by simp [hc])⟩ fun a => ?_
        by_cases ha : k = a
        · subst ha; rw [Memory.read_of_lt hk, Memory.read_of_lt hk']
        · simpa [Memory.read, ha] using h a
      rw [this]

end Sys2Proof.Machine
end

