-- ==== Sys2Proof/Laws/PerInstr.lean ====
section
/-! SUPPORT. One family of laws per instruction, about the instruction as syntax. OperandShape: an instruction has the
operand cells its format counts, and its register operands are the leading ones among them (R83, R84). -/

namespace Sys2Proof.Laws.OperandShape

/-- The operand cells are as many as the format counts, and the register operands lead them. -/
def Statement (i : Instr) : Prop :=
  i.operands.length = i.mnemonic.operandCount ∧ i.regOperands <+: i.operands

theorem hlt : Statement .hlt := by simp [Statement, Instr.operands, Instr.regOperands, Instr.mnemonic, Mnemonic.operandCount]
theorem ldi (a b : Byte) : Statement (.ldi a b) := by
  simp [Statement, Instr.operands, Instr.regOperands, Instr.mnemonic, Mnemonic.operandCount]
theorem prn (a : Byte) : Statement (.prn a) := by
  simp [Statement, Instr.operands, Instr.regOperands, Instr.mnemonic, Mnemonic.operandCount]
theorem pra (a : Byte) : Statement (.pra a) := by
  simp [Statement, Instr.operands, Instr.regOperands, Instr.mnemonic, Mnemonic.operandCount]
theorem add (a b : Byte) : Statement (.add a b) := by
  simp [Statement, Instr.operands, Instr.regOperands, Instr.mnemonic, Mnemonic.operandCount]
theorem mul (a b : Byte) : Statement (.mul a b) := by
  simp [Statement, Instr.operands, Instr.regOperands, Instr.mnemonic, Mnemonic.operandCount]
theorem push (a : Byte) : Statement (.push a) := by
  simp [Statement, Instr.operands, Instr.regOperands, Instr.mnemonic, Mnemonic.operandCount]
theorem pop (a : Byte) : Statement (.pop a) := by
  simp [Statement, Instr.operands, Instr.regOperands, Instr.mnemonic, Mnemonic.operandCount]
theorem call (a : Byte) : Statement (.call a) := by
  simp [Statement, Instr.operands, Instr.regOperands, Instr.mnemonic, Mnemonic.operandCount]
theorem ret : Statement .ret := by simp [Statement, Instr.operands, Instr.regOperands, Instr.mnemonic, Mnemonic.operandCount]
theorem cmp (a b : Byte) : Statement (.cmp a b) := by
  simp [Statement, Instr.operands, Instr.regOperands, Instr.mnemonic, Mnemonic.operandCount]
theorem jmp (a : Byte) : Statement (.jmp a) := by
  simp [Statement, Instr.operands, Instr.regOperands, Instr.mnemonic, Mnemonic.operandCount]
theorem jeq (a : Byte) : Statement (.jeq a) := by
  simp [Statement, Instr.operands, Instr.regOperands, Instr.mnemonic, Mnemonic.operandCount]
theorem jne (a : Byte) : Statement (.jne a) := by
  simp [Statement, Instr.operands, Instr.regOperands, Instr.mnemonic, Mnemonic.operandCount]
theorem st (a b : Byte) : Statement (.st a b) := by
  simp [Statement, Instr.operands, Instr.regOperands, Instr.mnemonic, Mnemonic.operandCount]

end Sys2Proof.Laws.OperandShape
end

