-- ==== Sys2Proof/Tests/Slice0.lean ====
section
/-! SUPPORT. Tests of the model on small states: the well-formedness smoke, one word of the encoding per instruction, and
single steps. Expected results are the spec's own: the encodings of R86, the vectors V<n> of 95_test_vectors.md and the
examples of the instruction rules, never the model's answers. -/

namespace Sys2Proof.Tests

open Sys2Proof.Machine

/-! ## Helpers -/

/-- The state a result holds, where it is a next state. -/
def nextOf : Result → Option State
  | .next t => some t
  | .fault _ => none
  | .refused _ => none

/-- The reset state of FULL with these cells from address 0. -/
def boot (cells : List Nat) : State := State.reset.loadFrom 0 cells

/-- The same at another program counter, with the cells there. -/
def bootAt (pc : Nat) (cells : List Nat) : State := (State.reset.loadFrom pc cells).setPc pc

/-- A 32-cell configuration with all 15 instructions (the one of V27, V53, V67, V70). -/
def small : Config := { Config.full with memSize := 32 }

/-- A reset state in the 32-cell configuration with this stack pointer. -/
def at32 (v : Byte) : State := { State.reset.setReg 7 v with cfg := small }

/-- A stop record as a vector writes it: cause(kind, value). -/
def record (t : State) : Bool × Cause × InfoKind × Nat := (t.stopped, t.cause, t.info.kind, t.info.value)

/-! ## Well-formedness smoke: a register operand of 8 or more is refused, an immediate is not -/

theorem test_wf_ri_refuses_a : WellFormed (.ldi 8#8 0#8) = false := by decide
theorem test_wf_r_refuses_a : WellFormed (.prn 8#8) = false := by decide
theorem test_wf_rr_refuses_a : WellFormed (.add 8#8 0#8) = false := by decide
theorem test_wf_rr_refuses_b : WellFormed (.st 0#8 8#8) = false := by decide
theorem test_wf_every_r_form_refuses :
    [Instr.pra 8#8, .push 9#8, .pop 255#8, .call 8#8, .jmp 8#8, .jeq 8#8, .jne 8#8].all (fun i => !WellFormed i) = true := by
  decide
theorem test_wf_every_rr_form_refuses :
    [Instr.mul 0#8 8#8, .mul 8#8 0#8, .cmp 0#8 8#8, .cmp 8#8 0#8, .add 7#8 9#8, .st 9#8 7#8].all
      (fun i => !WellFormed i) = true := by decide
theorem test_wf_accepts :
    [Instr.hlt, .ret, .ldi 7#8 255#8, .prn 7#8, .add 7#8 7#8, .st 0#8 7#8].all WellFormed = true := by decide

/-! ## Decoding: each instruction's cells written out bit by bit from R86 and R83 -/

theorem test_decode_hlt : decode Config.full [0b00000001#8, 0xFF#8, 0xFF#8] = .ok .hlt := rfl
theorem test_decode_ldi :
    decode Config.full [0b10000010#8, 0b00000011#8, 0b11111111#8] = .ok (.ldi 3#8 255#8) := rfl
theorem test_decode_prn : decode Config.full [0b01000111#8, 0b00000101#8, 0x00#8] = .ok (.prn 5#8) := rfl
theorem test_decode_pra : decode Config.full [0b01001000#8, 0b00000010#8, 0x00#8] = .ok (.pra 2#8) := rfl
theorem test_decode_add :
    decode Config.full [0b10100000#8, 0b00000001#8, 0b00000110#8] = .ok (.add 1#8 6#8) := rfl
theorem test_decode_mul :
    decode Config.full [0b10100010#8, 0b00000100#8, 0b00000010#8] = .ok (.mul 4#8 2#8) := rfl
theorem test_decode_push : decode Config.full [0b01000101#8, 0b00000111#8, 0x00#8] = .ok (.push 7#8) := rfl
theorem test_decode_pop : decode Config.full [0b01000110#8, 0b00000011#8, 0x00#8] = .ok (.pop 3#8) := rfl
theorem test_decode_call : decode Config.full [0b01010000#8, 0b00000001#8, 0x00#8] = .ok (.call 1#8) := rfl
theorem test_decode_ret : decode Config.full [0b00010001#8, 0x01#8, 0x02#8] = .ok .ret := rfl
theorem test_decode_cmp :
    decode Config.full [0b10100111#8, 0b00000000#8, 0b00000001#8] = .ok (.cmp 0#8 1#8) := rfl
theorem test_decode_jmp : decode Config.full [0b01010100#8, 0b00000110#8, 0x00#8] = .ok (.jmp 6#8) := rfl
theorem test_decode_jeq : decode Config.full [0b01010101#8, 0b00000010#8, 0x00#8] = .ok (.jeq 2#8) := rfl
theorem test_decode_jne : decode Config.full [0b01010110#8, 0b00000011#8, 0x00#8] = .ok (.jne 3#8) := rfl
theorem test_decode_st :
    decode Config.full [0b10000100#8, 0b00000000#8, 0b00000111#8] = .ok (.st 0#8 7#8) := rfl

/-- A register cell out of range still decodes (R89). -/
theorem test_decode_bad_register : decode Config.full [0x47#8, 0x08#8, 0x00#8] = .ok (.prn 8#8) := rfl
/-- 0x00 is unknown (R88), 0xC0 has three operands in its high bits (R82), and SIMPLE does not register ADD (R121). -/
theorem test_decode_zero : decode Config.full [0x00#8, 0#8, 0#8] = .error (.unknownOpcode 0x00#8) := rfl
theorem test_decode_nops3 : decode Config.full [0xC0#8, 0#8, 0#8] = .error (.unknownOpcode 0xC0#8) := rfl
theorem test_decode_simple_add : decode Config.simple [0xA0#8, 0#8, 0#8] = .error (.unknownOpcode 0xA0#8) := rfl
theorem test_decode_truncated : decode Config.full [0x01#8, 0#8] = .error .truncated := rfl

/-- In FULL 241 opcode values are unknown, in SIMPLE 252 (R88). -/
theorem test_unmapped_counts :
    ((List.range 256).filter fun k => (Config.full.lookup (BitVec.ofNat 8 k)).isNone).length = 241 ∧
    ((List.range 256).filter fun k => (Config.simple.lookup (BitVec.ofNat 8 k)).isNone).length = 252 := by
  decide +kernel

/-- The table's numbering: the first cell is the low byte. -/
theorem test_table_word : decodeTableWord 24 0x2A0082 = some (.ldi 0#8 0x2A#8) := rfl
/-- Cells above the given bits are zero. -/
theorem test_table_word_short : decodeTableWord 8 0xFFFF54 = some (.jmp 0#8) := rfl

/-! ## Single steps -/

/-- V3, V20a: the two cells after HLT are ignored; the record holds the address; pc stays. -/
theorem test_hlt : (nextOf (step (bootAt 5 [0x01, 0xFF, 0xFF]))).map (fun t => (record t, t.pc)) =
    some ((true, .halt, .none, 5), 5) := by decide
/-- V13: 253 is the last address where an instruction executes. -/
theorem test_hlt_last : (nextOf (step (bootAt 0xFD [0x01]))).map record = some (true, .halt, .none, 0xFD) := by decide
/-- V15: the number is unsigned. -/
theorem test_prn : (nextOf (step ((boot [0x47, 3]).setReg 3 0xFF#8))).map (fun t => (t.out, t.pc)) =
    some ([⟨.num, 255#8⟩], 2) := by decide
/-- V16. -/
theorem test_prn_bad : (nextOf (step (boot [0x47, 8]))).map (fun t => (record t, t.out, t.pc)) =
    some ((true, .addressOutOfRange, .reg, 8), [], 0) := by decide
/-- V18: a code above 127 is carried unchanged. -/
theorem test_pra : (nextOf (step ((boot [0x48, 0]).setReg 0 0xE9#8))).map (fun t => (t.out, t.pc)) =
    some ([⟨.chr, 0xE9#8⟩], 2) := by decide
/-- V21: the stack pointer is an ordinary destination. -/
theorem test_ldi_sp : (nextOf (step (boot [0x82, 7, 0x80]))).map (fun t => (t.reg 7, t.pc)) = some (0x80#8, 3) := by decide
/-- V7: the advance from 253 reaches 256, and V23: the immediate is no register index. -/
theorem test_ldi_top : (nextOf (step (bootAt 0xFD [0x82, 3, 0xFF]))).map (fun t => (t.reg 3, t.pc)) =
    some (0xFF#8, 256) := by decide
/-- V24. -/
theorem test_st : (nextOf (step (((boot [0x84, 0, 1]).setReg 0 0x80#8).setReg 1 0x7F#8))).map
    (fun t => (t.memRead 0x80, t.pc)) = some (0x7F#8, 3) := by decide
/-- V29: `a` is reported before `b`. -/
theorem test_st_order : (nextOf (step (boot [0x84, 9, 10]))).map record =
    some (true, .addressOutOfRange, .reg, 9) := by decide
/-- V31, R152's own figure: 250 + 10 wraps to 4. -/
theorem test_add_wraps : (nextOf (step (((boot [0xA0, 0, 1]).setReg 0 250#8).setReg 1 10#8))).map
    (fun t => (t.reg 0, t.reg 1, t.pc)) = some (4#8, 10#8, 3) := by decide
/-- V34, V35: a = b doubles, and the flags stay. -/
theorem test_add_same : (nextOf (step (((boot [0xA0, 2, 2]).setReg 2 0x80#8).setFlagE true))).map
    (fun t => (t.reg 2, t.fl)) = some (0#8, 1#8) := by decide
/-- V38. -/
theorem test_mul_wraps : (nextOf (step (((boot [0xA2, 0, 1]).setReg 0 255#8).setReg 1 255#8))).map
    (fun t => (t.reg 0, t.pc)) = some (1#8, 3) := by decide
/-- V40: a = b squares. -/
theorem test_mul_same : (nextOf (step ((boot [0xA2, 4, 4]).setReg 4 17#8))).map (fun t => t.reg 4) = some 33#8 := by decide
/-- V42. -/
theorem test_cmp_sets : (nextOf (step (((boot [0xA7, 0, 1]).setReg 0 7#8).setReg 1 7#8))).map
    (fun t => (t.fl, t.pc)) = some (1#8, 3) := by decide
/-- V43: CMP also clears. -/
theorem test_cmp_clears : (nextOf (step ((((boot [0xA7, 0, 1]).setReg 0 7#8).setReg 1 8#8).setFlagE true))).map
    (fun t => t.fl) = some 0#8 := by decide
/-- V51: PUSH R7 stores the new stack pointer. -/
theorem test_push_sp : (nextOf (step (boot [0x45, 7]))).map (fun t => (t.reg 7, t.memRead 0xF3, t.pc)) =
    some (0xF3#8, 0xF3#8, 2) := by decide
/-- V49: the decrement wraps. -/
theorem test_push_wraps : (nextOf (step (((boot [0x45, 0]).setReg 7 0#8).setReg 0 0xAB#8))).map
    (fun t => (t.reg 7, t.memRead 0xFF)) = some (0xFF#8, 0xAB#8) := by decide
/-- V52: POP R7 ends with the popped value plus one. -/
theorem test_pop_sp : (nextOf (step ((boot [0x46, 7]).memWrite 0xF4 0x20#8))).map (fun t => (t.reg 7, t.pc)) =
    some (0x21#8, 2) := by decide
/-- V50: the increment wraps. -/
theorem test_pop_wraps : (nextOf (step (((boot [0x46, 0]).setReg 7 0xFF#8).memWrite 0xFF 0x5A#8))).map
    (fun t => (t.reg 0, t.reg 7)) = some (0x5A#8, 0#8) := by decide
/-- V56. -/
theorem test_call : (nextOf (step ((bootAt 9 [0x50, 1]).setReg 1 0x20#8))).map
    (fun t => (t.reg 7, t.memRead 0xF3, t.pc)) = some (0xF3#8, 0x0B#8, 0x20) := by decide
/-- V58: CALL R7 jumps to the decremented stack pointer. -/
theorem test_call_sp : (nextOf (step (boot [0x50, 7]))).map (fun t => (t.memRead 0xF3, t.pc)) =
    some (0x02#8, 0xF3) := by decide
/-- V57. -/
theorem test_ret : (nextOf (step (((bootAt 0x24 [0x11]).setReg 7 0xF3#8).memWrite 0xF3 0x0B#8))).map
    (fun t => (t.pc, t.reg 7)) = some (0x0B, 0xF4#8) := by decide
/-- V70. -/
theorem test_ret_out : (nextOf (step { boot [0x11] with cfg := small })).map (fun t => (record t, t.pc, t.reg 7)) =
    some ((true, .addressOutOfRange, .mem, 0xF4), 0, 0xF4#8) := by decide
/-- V60. -/
theorem test_jmp : (nextOf (step ((boot [0x54, 0]).setReg 0 0x40#8))).map (fun t => t.pc) = some 0x40 := by decide
/-- V62 and V63. -/
theorem test_jeq_taken : (nextOf (step (((bootAt 0x0C [0x55, 2]).setReg 2 0x10#8).setFlagE true))).map
    (fun t => t.pc) = some 0x10 := by decide
theorem test_jeq_falls : (nextOf (step ((bootAt 0x0C [0x55, 2]).setReg 2 0x10#8))).map (fun t => t.pc) =
    some 0x0E := by decide
/-- V64 and V65. -/
theorem test_jne_taken : (nextOf (step ((bootAt 0x17 [0x56, 3]).setReg 3 0x0F#8))).map (fun t => t.pc) =
    some 0x0F := by decide
theorem test_jne_falls : (nextOf (step (((bootAt 0x17 [0x56, 3]).setReg 3 0x0F#8).setFlagE true))).map
    (fun t => t.pc) = some 0x19 := by decide

/-! ## The step's own stops -/

/-- V7's next step: the end of memory. -/
theorem test_pc_out : (nextOf (step (State.reset.setPc 256))).map (fun t => (record t, t.pc)) =
    some ((true, .pcOutOfRange, .none, 256), 256) := by decide
/-- V8, V10: the fetch stop comes before the opcode is looked at, and records MEMSIZE. -/
theorem test_fetch_out : (nextOf (step (bootAt 0xFE [0x01]))).map (fun t => (record t, t.pc)) =
    some ((true, .addressOutOfRange, .fetch, 256), 0xFE) := by decide
theorem test_fetch_first : (nextOf (step (bootAt 0xFF [0xFF]))).map record =
    some (true, .addressOutOfRange, .fetch, 256) := by decide
/-- V4: an empty image stops at its first cell. -/
theorem test_unknown : (nextOf (step State.reset)).map (fun t => (record t, t.pc)) =
    some ((true, .unknownOpcode, .none, 0), 0) := by decide
/-- V12: a stopped machine is left as it is. -/
theorem test_stopped : nextOf (step { boot [0x82, 0, 5] with stopped := true }) =
    some { boot [0x82, 0, 5] with stopped := true } := by decide +kernel
/-- The instruction placed at the program counter is the one the next step runs. -/
theorem test_with_fetch_word : (nextOf (step (State.reset.withFetchWord 24 0x2A0082))).map (fun t => (t.reg 0, t.pc)) =
    some (0x2A#8, 3) := by decide
/-- The two named configurations are legal (R7). -/
theorem test_configurations_legal : Config.full.legal = true ∧ Config.simple.legal = true := by decide

/-! ## Witnesses: for each statement with hypotheses, concrete states and operands that meet all of them, at a boundary
value for each clause -/

theorem witness_OpcodeTableDecodes : ∀ m : Mnemonic, OpcodeMap.table.value m ≠ 0xC1#8 := by
  intro m; cases m <;> decide
theorem witness_DecodeEncodeRoundTrip :
    Config.full.opcodeMap.legal = true ∧ (Instr.ldi 255#8 255#8).mnemonic ∈ Config.full.enabled := by decide
theorem witness_EncodeDecodeRoundTrip :
    decode Config.simple [0xA2#8, 7#8, 255#8, 0#8] = .ok (.mul 7#8 255#8) := rfl
theorem witness_UnregisteredOpcodesAreUnknown :
    (∀ m ∈ Config.full.enabled, Config.full.opcodeMap.value m ≠ 0x00#8) ∧
    ¬ (∀ m ∈ Config.full.enabled, Config.full.opcodeMap.value m ≠ 0x01#8) := by decide
theorem witness_InstructionLengthIsHighBitsPlusOne :
    Config.full.opcodeMap.legal = true ∧ 0xC0 ≤ (0xC0#8 : Byte).toNat ∧ 0xC0 ≤ (0xFF#8 : Byte).toNat := by decide

theorem witness_HltStopsTheMachine_next :
    State.reset.cfg.legal = true ∧ exec .hlt State.reset = .next (State.reset.raise (Stop.halt 0)) :=
  ⟨by decide, rfl⟩
theorem witness_HltStopsTheMachine_last_cells :
    ((bootAt 254 [0x01]).cfg.legal = true ∧ (bootAt 254 [0x01]).stopped = false ∧
      (bootAt 254 [0x01]).pc + 2 = (bootAt 254 [0x01]).cfg.memSize) ∧
    ((bootAt 255 [0x01]).cfg.legal = true ∧ (bootAt 255 [0x01]).stopped = false ∧
      (bootAt 255 [0x01]).pc + 1 = (bootAt 255 [0x01]).cfg.memSize) := by decide
theorem witness_PrnEmitsNumber :
    State.reset.cfg.opcodeMap.legal = true ∧ (7#8 : Byte).toNat < 8 ∧ 8 ≤ (8#8 : Byte).toNat := by decide
theorem witness_PraEmitsCharacter :
    State.reset.cfg.opcodeMap.legal = true ∧ (7#8 : Byte).toNat < 8 ∧ 8 ≤ (255#8 : Byte).toNat := by decide
theorem witness_LdiLoadsImmediate :
    State.reset.cfg.opcodeMap.legal = true ∧ (7#8 : Byte).toNat < 8 ∧ 8 ≤ (8#8 : Byte).toNat := by decide
theorem witness_StStoresRegister_effect :
    (at32 31#8).cfg.opcodeMap.legal = true ∧ (7#8 : Byte).toNat < 8 ∧
    ((at32 31#8).regs[(7#8 : Byte).toNat]'(by decide)).toNat < (at32 31#8).cfg.memSize := by decide
theorem witness_StStoresRegister_address :
    (at32 32#8).cfg.opcodeMap.legal = true ∧ (7#8 : Byte).toNat < 8 ∧
    (at32 32#8).cfg.memSize ≤ ((at32 32#8).regs[(7#8 : Byte).toNat]'(by decide)).toNat := by decide
theorem witness_StStoresRegister_registers :
    State.reset.cfg.opcodeMap.legal = true ∧ 8 ≤ (8#8 : Byte).toNat ∧
    ((7#8 : Byte).toNat < 8 ∧ 8 ≤ (8#8 : Byte).toNat) := by decide
theorem witness_AddWrapsModulo256 :
    State.reset.cfg.opcodeMap.legal = true ∧ ((7#8 : Byte).toNat < 8 ∧ (0#8 : Byte).toNat < 8) ∧
    8 ≤ (8#8 : Byte).toNat ∧ ((7#8 : Byte).toNat < 8 ∧ 8 ≤ (8#8 : Byte).toNat) := by decide
theorem witness_MulWrapsModulo256 :
    State.reset.cfg.opcodeMap.legal = true ∧ ((0#8 : Byte).toNat < 8 ∧ (7#8 : Byte).toNat < 8) ∧
    8 ≤ (255#8 : Byte).toNat ∧ ((0#8 : Byte).toNat < 8 ∧ 8 ≤ (8#8 : Byte).toNat) := by decide
theorem witness_CmpSetsEqualityBit :
    State.reset.cfg.opcodeMap.legal = true ∧ ((0#8 : Byte).toNat < 8 ∧ (7#8 : Byte).toNat < 8) ∧
    State.reset.regs[(0#8 : Byte).toNat]'(by decide) = State.reset.regs[(1#8 : Byte).toNat]'(by decide) ∧
    State.reset.regs[(0#8 : Byte).toNat]'(by decide) ≠ State.reset.regs[(7#8 : Byte).toNat]'(by decide) ∧
    8 ≤ (8#8 : Byte).toNat ∧ ((7#8 : Byte).toNat < 8 ∧ 8 ≤ (8#8 : Byte).toNat) := by decide
theorem witness_PushStoresBelowTheStackPointer_effect :
    (at32 32#8).cfg.opcodeMap.legal = true ∧
    (31#8 : Byte) = BitVec.ofNat 8 ((((at32 32#8).regs[7]).toNat + 255) % 256) ∧ (7#8 : Byte).toNat < 8 ∧
    (31#8 : Byte).toNat < (at32 32#8).cfg.memSize ∧ 8 ≤ (8#8 : Byte).toNat := by decide
theorem witness_PushStoresBelowTheStackPointer_address :
    (at32 0#8).cfg.opcodeMap.legal = true ∧
    (255#8 : Byte) = BitVec.ofNat 8 ((((at32 0#8).regs[7]).toNat + 255) % 256) ∧ (0#8 : Byte).toNat < 8 ∧
    (at32 0#8).cfg.memSize ≤ (255#8 : Byte).toNat := by decide
theorem witness_PopLoadsFromTheStackPointer_effect :
    (at32 31#8).cfg.opcodeMap.legal = true ∧ ((at32 31#8).regs[7]).toNat < (at32 31#8).cfg.memSize ∧
    ((6#8 : Byte).toNat < 8 ∧ (6#8 : Byte).toNat ≠ 7) ∧ ((7#8 : Byte).toNat < 8 ∧ (7#8 : Byte).toNat = 7) ∧
    8 ≤ (8#8 : Byte).toNat := by decide
theorem witness_PopLoadsFromTheStackPointer_address :
    (at32 32#8).cfg.opcodeMap.legal = true ∧ (7#8 : Byte).toNat < 8 ∧
    (at32 32#8).cfg.memSize ≤ ((at32 32#8).regs[7]).toNat := by decide
theorem witness_CallPushesReturnAddress_effect :
    (243#8 : Byte) = BitVec.ofNat 8 ((((bootAt 253 [0x50, 7]).regs[7]).toNat + 255) % 256) ∧ (7#8 : Byte).toNat < 8 ∧
    (243#8 : Byte).toNat < (bootAt 253 [0x50, 7]).cfg.memSize ∧ (bootAt 253 [0x50, 7]).pc ≤ 253 ∧
    8 ≤ (8#8 : Byte).toNat := by decide
theorem witness_CallPushesReturnAddress_address :
    (32#8 : Byte) = BitVec.ofNat 8 ((((at32 33#8).regs[7]).toNat + 255) % 256) ∧ (7#8 : Byte).toNat < 8 ∧
    (at32 33#8).cfg.memSize ≤ (32#8 : Byte).toNat := by decide
theorem witness_RetPopsTheProgramCounter :
    ((at32 31#8).regs[7]).toNat < (at32 31#8).cfg.memSize ∧
    (at32 32#8).cfg.memSize ≤ ((at32 32#8).regs[7]).toNat := by decide
theorem witness_JmpGoesToRegister : (7#8 : Byte).toNat < 8 ∧ 8 ≤ (8#8 : Byte).toNat := by decide
theorem witness_JeqJumpsOnEquality :
    (7#8 : Byte).toNat < 8 ∧ (State.reset.setFlagE true).fl.getLsbD 0 = true ∧ State.reset.fl.getLsbD 0 = false ∧
    8 ≤ (8#8 : Byte).toNat := by decide
theorem witness_JneJumpsOnInequality :
    (0#8 : Byte).toNat < 8 ∧ (State.reset.setFlagE true).fl.getLsbD 0 = true ∧ State.reset.fl.getLsbD 0 = false ∧
    8 ≤ (255#8 : Byte).toNat := by decide
theorem witness_CallFaultsWhereReturnAddressDoesNotFit :
    (7#8 : Byte).toNat < 8 ∧ ((State.reset.setPc 254).regs[7] - 1#8).toNat < (State.reset.setPc 254).cfg.memSize ∧
    254 ≤ (State.reset.setPc 254).pc := by decide

theorem witness_FrameOfLdiAddMul :
    (∃ t, exec (.ldi 7#8 5#8) State.reset = .next t) ∧ (∃ t, exec (.add 7#8 7#8) State.reset = .next t) ∧
    (∃ t, exec (.mul 0#8 7#8) State.reset = .next t) := ⟨⟨_, rfl⟩, ⟨_, rfl⟩, ⟨_, rfl⟩⟩
theorem witness_FrameOfPrnPra :
    (∃ t, exec (.prn 7#8) State.reset = .next t) ∧ (∃ t, exec (.pra 0#8) State.reset = .next t) :=
  ⟨⟨_, rfl⟩, ⟨_, rfl⟩⟩
theorem witness_FrameOfCmpHlt :
    (∃ t, exec (.cmp 0#8 7#8) State.reset = .next t) ∧ (∃ t, exec .hlt State.reset = .next t) := ⟨⟨_, rfl⟩, ⟨_, rfl⟩⟩
theorem witness_FrameOfSt :
    ((∃ t, exec (.st 7#8 0#8) State.reset = .next t) ∧ (7#8 : Byte).toNat < 8) ∧
    ((∃ t, exec (.st 8#8 0#8) State.reset = .next t) ∧ 8 ≤ (8#8 : Byte).toNat) :=
  ⟨⟨⟨_, rfl⟩, by decide⟩, ⟨⟨_, rfl⟩, by decide⟩⟩
theorem witness_FrameOfPushCall :
    (∃ t, exec (.push 7#8) State.reset = .next t) ∧ (∃ t, exec (.call 0#8) State.reset = .next t) :=
  ⟨⟨_, rfl⟩, ⟨_, rfl⟩⟩
theorem witness_FrameOfPopRet :
    (∃ t, exec (.pop 7#8) State.reset = .next t) ∧ (∃ t, exec .ret State.reset = .next t) := ⟨⟨_, rfl⟩, ⟨_, rfl⟩⟩
theorem witness_FrameOfJumps :
    (∃ t, exec (.jmp 7#8) State.reset = .next t) ∧ (∃ t, exec (.jeq 7#8) State.reset = .next t) ∧
    (∃ t, exec (.jne 7#8) State.reset = .next t) := ⟨⟨_, rfl⟩, ⟨_, rfl⟩, ⟨_, rfl⟩⟩

theorem witness_StepRunsDecodedInstruction :
    (bootAt 253 [0x82, 7, 255]).cfg.legal = true ∧ (bootAt 253 [0x82, 7, 255]).stopped = false ∧
    (bootAt 253 [0x82, 7, 255]).pc + 2 < (bootAt 253 [0x82, 7, 255]).cfg.memSize ∧
    decode (bootAt 253 [0x82, 7, 255]).cfg [(bootAt 253 [0x82, 7, 255]).memRead 253,
      (bootAt 253 [0x82, 7, 255]).memRead 254, (bootAt 253 [0x82, 7, 255]).memRead 255] = .ok (.ldi 7#8 255#8) :=
  ⟨by decide, rfl, by decide, rfl⟩
theorem witness_StepStopsBeforeTheHandler :
    State.reset.cfg.legal = true ∧ State.reset.stopped = false ∧
    (State.reset.setPc 256).cfg.memSize ≤ (State.reset.setPc 256).pc ∧
    ((State.reset.setPc 254).pc < (State.reset.setPc 254).cfg.memSize ∧
      (State.reset.setPc 254).cfg.memSize ≤ (State.reset.setPc 254).pc + 2) ∧
    ((State.reset.setPc 253).pc + 2 < (State.reset.setPc 253).cfg.memSize ∧
      ∀ m ∈ (State.reset.setPc 253).cfg.enabled,
        (State.reset.setPc 253).cfg.opcodeMap.value m ≠ (State.reset.setPc 253).memRead (State.reset.setPc 253).pc) := by
  decide
theorem witness_StoppedMachineIsFrozen :
    (State.reset.raise (Stop.halt 0)).cfg.legal = true ∧ (State.reset.raise (Stop.halt 0)).stopped = true := by decide
theorem witness_StopsArePrecise :
    State.reset.stopped = false ∧
    ∃ t, step State.reset = .next t ∧ t.stopped = true := ⟨rfl, _, rfl, rfl⟩
theorem witness_EveryStepAnswersNext : State.reset.cfg.legal = true := by decide
theorem witness_IllegalConfigurationIsRefused :
    ({ State.reset with cfg := { Config.full with memSize := 257 } } : State).cfg.legal = false ∧
    (({ Config.full with memSize := 2 } : Config).memSize < 3 ∧ 256 < ({ Config.full with memSize := 257 } : Config).memSize) ∧
    (Mnemonic.jeq ≠ Mnemonic.jne ∧ ({ Config.full with opcodeMap := { OpcodeMap.table with jne := 0x55#8 } } :
      Config).opcodeMap.value .jeq = ({ Config.full with opcodeMap := { OpcodeMap.table with jne := 0x55#8 } } :
      Config).opcodeMap.value .jne) ∧
    nops (({ Config.full with opcodeMap := { OpcodeMap.table with hlt := 0xC1#8 } } : Config).opcodeMap.value .hlt) ≠
      Mnemonic.operandCount .hlt := by decide
theorem witness_ConfigurationNeverChanges : ∃ t, core.run 2 (boot [0x82, 0, 42, 0x47, 0]) = .next t := ⟨_, rfl⟩
theorem reset_inv : State.reset.Inv :=
  ⟨by decide, by decide, .inl rfl, by decide, by decide, fun h => absurd h (by decide)⟩
theorem witness_InvariantIsKeptByEveryStep : State.reset.Inv ∧ ∃ t, step State.reset = .next t :=
  ⟨reset_inv, _, rfl⟩
theorem witness_InvariantHoldsAtReset : Config.simple.legal = true := by decide
theorem witness_InvariantHoldsAlongEveryRun :
    ∃ b b' t, resetBlock Config.simple = .next b ∧ b.apply (.loadImage [0x82, 0, 42, 0x47, 0, 1]) = .next b' ∧
      core.run 3 b'.core = .next t := ⟨_, _, _, rfl, rfl, rfl⟩

theorem witness_RegisterIndexIsCheckedFirst :
    (Instr.st 9#8 10#8).regOperands.find? (fun c => decide (8 ≤ c.toNat)) = some 9#8 ∧
    (Instr.add 7#8 8#8).regOperands.find? (fun c => decide (8 ≤ c.toNat)) = some 8#8 := by decide
theorem witness_WellFormedInstructionsComplete :
    WellFormed (.push 7#8) = true ∧ Instr.push 7#8 ≠ .hlt ∧ (State.reset.setPc 253).pc ≤ 253 ∧
    (∀ d, dataAddress (.push 7#8) (State.reset.setPc 253) = some d → d.toNat < (State.reset.setPc 253).cfg.memSize) :=
  ⟨by decide, by decide, by decide, fun d _ => d.isLt⟩
theorem witness_DataAddressIsChecked :
    WellFormed (.pop 7#8) = true ∧ dataAddress (.pop 7#8) (at32 32#8) = some 32#8 ∧
    (at32 32#8).cfg.memSize ≤ (32#8 : Byte).toNat := by decide
theorem witness_StopCausesHaveTheirSources :
    (bootAt 254 [0x01]).stopped = false ∧ ∃ t, step (bootAt 254 [0x01]) = .next t ∧ t.stopped = true :=
  ⟨rfl, _, rfl, rfl⟩
theorem witness_UnsupportedAluOperationIsUnreachable :
    State.reset.cause ≠ .unsupportedALUOperation ∧ ∃ t, step State.reset = .next t := ⟨by decide, _, rfl⟩
theorem witness_FullMemoryHasNoDataAddressStop :
    State.reset.cfg.memSize = 256 ∧ State.reset.stopped = false ∧ ∃ t, step State.reset = .next t ∧ t.stopped = true :=
  ⟨rfl, rfl, _, rfl, rfl⟩
theorem witness_OnlyCmpWritesTheFlags :
    (Instr.add 7#8 7#8).mnemonic ≠ .cmp ∧ ∃ t, exec (.add 7#8 7#8) State.reset = .next t := ⟨by decide, _, rfl⟩
theorem witness_OnlyConditionalJumpsReadTheFlags :
    (Instr.cmp 0#8 7#8).mnemonic ≠ .jeq ∧ (Instr.cmp 0#8 7#8).mnemonic ≠ .jne ∧
    ∃ t, exec (.cmp 0#8 7#8) State.reset = .next t := ⟨by decide, by decide, _, rfl⟩
theorem witness_OutputIsNeverRead : ∃ t, step (boot [0x47, 7]) = .next t := ⟨_, rfl⟩
theorem witness_OnlyPrintsEmit : ∃ t, step (boot [0x48, 7]) = .next t ∧ t.out = [⟨.chr, 0xF4#8⟩] := ⟨_, rfl, rfl⟩
theorem witness_MemoryChangesOnlyAtTheDataAddress :
    ∃ t, exec (.push 7#8) State.reset = .next t ∧ t.memRead 0xF3 ≠ State.reset.memRead 0xF3 := ⟨_, rfl, by decide⟩
theorem witness_RegistersHaveTheirWriters :
    (∃ t, exec (.ldi 7#8 1#8) State.reset = .next t ∧ t.reg 7 ≠ State.reset.reg 7) ∧
    (∃ t, exec (.pop 0#8) State.reset = .next t ∧ t.reg 7 ≠ State.reset.reg 7) :=
  ⟨⟨_, rfl, by decide⟩, ⟨_, rfl, by decide⟩⟩
theorem witness_AutoAdvanceOutsidePcSet :
    State.reset.stopped = false ∧ (Instr.prn 7#8).mnemonic ∉ [Mnemonic.call, .ret, .jmp, .jeq, .jne] ∧
    ∃ t, exec (.prn 7#8) State.reset = .next t ∧ t.stopped = false := ⟨rfl, by decide, _, rfl, rfl⟩
theorem witness_MemoryReadAfterWrite : (256 : Nat) ≠ 255 := by decide
theorem witness_StoreIsSeenByTheNextFetch :
    (3#8 : Byte).toNat < 8 ∧ (2#8 : Byte).toNat < 8 ∧ (State.reset.setReg 3 3#8).reg 3 = 3#8 ∧
    ∃ t, exec (.st 3#8 2#8) (State.reset.setReg 3 3#8) = .next t ∧
      ((State.reset.setReg 3 3#8).reg 3).toNat < (State.reset.setReg 3 3#8).cfg.memSize ∧
      t.pc + 2 < t.cfg.memSize ∧ ((State.reset.setReg 3 3#8).reg 3).toNat = t.pc :=
  ⟨by decide, by decide, by decide, _, rfl, by decide, by decide, by decide⟩
theorem witness_PushPopRestores :
    State.reset.cfg.opcodeMap.legal = true ∧ (7#8 : Byte).toNat < 8 ∧
    (State.reset.reg sp - 1#8).toNat < State.reset.cfg.memSize := by decide
theorem witness_CallReturnResumes :
    (7#8 : Byte).toNat < 8 ∧ (State.reset.reg sp - 1#8).toNat < State.reset.cfg.memSize ∧
    ∃ t u : State, exec (.call 7#8) State.reset = .next t ∧ u.cfg = State.reset.cfg ∧ u.reg sp = t.reg sp ∧
      u.memRead (u.reg sp).toNat = t.memRead (t.reg sp).toNat :=
  have ⟨t, ran, cfg⟩ : ∃ t, exec (.call 7#8) State.reset = .next t ∧ t.cfg = State.reset.cfg := ⟨_, rfl, rfl⟩
  ⟨by decide, by decide, t, t, ran, cfg, rfl, rfl⟩
theorem witness_CompareDecidesTheBranch :
    (0#8 : Byte).toNat < 8 ∧ (7#8 : Byte).toNat < 8 ∧
    ∃ t u : State, exec (.cmp 0#8 7#8) State.reset = .next t ∧ u.fl = t.fl := ⟨by decide, by decide, _, State.reset, rfl, rfl⟩
theorem witness_SelfJumpNeverEnds :
    (0#8 : Byte).toNat < 8 ∧ (boot [0x54, 0]).cfg.legal = true ∧ (boot [0x54, 0]).stopped = false ∧
    (boot [0x54, 0]).pc + 2 < (boot [0x54, 0]).cfg.memSize ∧
    decode (boot [0x54, 0]).cfg [(boot [0x54, 0]).memRead 0, (boot [0x54, 0]).memRead 1, (boot [0x54, 0]).memRead 2] =
      .ok (.jmp 0#8) ∧ ((boot [0x54, 0]).reg 0).toNat = (boot [0x54, 0]).pc :=
  ⟨by decide, by decide, rfl, by decide, rfl, rfl⟩

theorem witness_ResetValues : Config.full.legal = true ∧ Config.simple.legal = true ∧ (6 : Reg) ≠ 7 := by decide
theorem witness_ImageStandsFromAddressZero :
    (∃ b, resetBlock Config.simple = .next b) ∧
    ((List.replicate 32 255).length ≤ Config.simple.memSize ∧ ∀ v ∈ List.replicate 32 255, v ≤ 255) ∧
    (Config.simple.memSize < (List.replicate 33 0).length ∧ ∃ v ∈ [256], 255 < v) := ⟨⟨_, rfl⟩, by decide⟩
theorem witness_LoadPortOpensUntilTheFirstStep :
    ((⟨State.reset, true⟩ : Block).loadOpen = true ∧ 255 < (⟨State.reset, true⟩ : Block).core.cfg.memSize ∧ 255 ≤ 255) ∧
    ((⟨State.reset, true⟩ : Block).core.cfg.memSize ≤ 256 ∧ 255 < 256) ∧
    ∃ b', (⟨State.reset, true⟩ : Block).apply .step = .next b' := ⟨by decide, by decide, _, rfl⟩

end Sys2Proof.Tests
end

/-! ## The register checks come first, in operand order (R24) -/

namespace Sys2Proof.Machine

/-- The first cell of `cells` that names no register: 8 or more (R24). -/
abbrev firstBadIndex (cells : List Byte) : Option Byte := cells.find? fun c => decide (8 ≤ c.toNat)

/-- A check of the first cell, whose continuation reports the first bad cell of the rest, reports the first bad cell of
the whole list: the induction step over an instruction's register operands. -/
theorem requireReg_of_firstBadIndex_cons {a k : Byte} {rest : List Byte} {s : State} {go : Reg → Result}
    (h : firstBadIndex (a :: rest) = some k)
    (hgo : firstBadIndex rest = some k → ∀ r, go r = .next (s.raise (Stop.regOutOfRange k))) :
    requireReg a s go = .next (s.raise (Stop.regOutOfRange k)) := by
  by_cases ha : a.toNat < 8
  · have hrest : firstBadIndex rest = some k := by
      rwa [firstBadIndex, List.find?_cons_of_neg (by simpa using ha)] at h
    rw [requireReg_of_lt ha]
    exact hgo hrest _
  · have hk : a = k := by
      rw [firstBadIndex, List.find?_cons_of_pos (by simpa using ha)] at h
      exact Option.some.inj h
    rw [requireReg_of_ge (Nat.not_lt.mp ha), hk]

theorem requireReg_of_firstBadIndex {a k : Byte} (h : firstBadIndex [a] = some k) (s : State) (go : Reg → Result) :
    requireReg a s go = .next (s.raise (Stop.regOutOfRange k)) :=
  requireReg_of_firstBadIndex_cons h fun hnil => absurd hnil (by simp)

theorem requireReg_requireReg_of_firstBadIndex {a b k : Byte} (h : firstBadIndex [a, b] = some k) (s : State)
    (go : Reg → Reg → Result) :
    (requireReg a s fun ra => requireReg b s fun rb => go ra rb) = .next (s.raise (Stop.regOutOfRange k)) :=
  requireReg_of_firstBadIndex_cons h fun hb _ => requireReg_of_firstBadIndex hb s _

/-- Every instruction runs its register checks before anything else, so it ends at the first bad index. -/
theorem exec_of_firstBadIndex {i : Instr} {k : Byte} (h : firstBadIndex i.regOperands = some k) (s : State) :
    exec i s = .next (s.raise (Stop.regOutOfRange k)) := by
  cases i with
  | hlt | ret => exact absurd h (by simp [Instr.regOperands])
  | ldi a _ | prn a | pra a | push a | pop a | call a | jmp a | jeq a | jne a =>
    simp only [exec, execLdi, execPrn, execPra, execPush, execPop, execCall, execJmp, execJeq, execJne, jumpIf]
    exact requireReg_of_firstBadIndex h s _
  | add a b | mul a b | cmp a b | st a b =>
    simp only [exec, execAdd, execMul, execCmp, execAlu, execSt]
    exact requireReg_requireReg_of_firstBadIndex h s _

/-- Settles O39: each handler opens with the checks of its register operands, in operand order (R24, R84). -/
theorem registerIndexIsCheckedFirst : Obligations.RegisterIndexIsCheckedFirst :=
  fun _ s _ h => exec_of_firstBadIndex h s

end Sys2Proof.Machine

/-! ## A memory write and nothing else (R53) -/

namespace Sys2Proof.Machine

/-- The state's form of `Memory.read_write_ne`; the same cell is `State.memWrite_memRead_self`. -/
theorem State.memWrite_memRead_ne (s : State) {addr other : Nat} (v : Byte) (h : other ≠ addr) :
    (s.memWrite addr v).memRead other = s.memRead other :=
  Memory.read_write_ne s.mem v h.symm

/-- Settles O52 by a read rule for each kind of cell; that no other field is touched is the definition of the write. -/
theorem memoryReadAfterWrite : Obligations.MemoryReadAfterWrite := fun s addr v =>
  ⟨s.memWrite_memRead_self addr v, fun _ hne => s.memWrite_memRead_ne v hne, rfl⟩

end Sys2Proof.Machine

/-! ## The opcode table of R86 under the decoder -/

namespace Sys2Proof

/-- Under a legal map the opcode value of an enabled mnemonic, followed by two cells, decodes to that mnemonic's
instruction over them; the cells after these have no effect (R95, R113). -/
theorem decode_value {c : Config} (hl : c.opcodeMap.legal = true) {m : Mnemonic} (hm : m ∈ c.enabled) (a b : Byte)
    (rest : List Byte) : decode c (c.opcodeMap.value m :: a :: b :: rest) = .ok (m.instr a b) := by
  simp only [decode, decodeCells, Config.lookup_value hl hm]

/-- An opcode value of no enabled mnemonic is refused (R88, R113). -/
theorem decode_of_value_ne {c : Config} {ir : Byte} (h : ∀ m ∈ c.enabled, c.opcodeMap.value m ≠ ir) (a b : Byte)
    (rest : List Byte) : decode c (ir :: a :: b :: rest) = .error (.unknownOpcode ir) := by
  simp only [decode, decodeCells, Config.lookup_none_iff.mpr h]

theorem OpcodeMap.table_legal : OpcodeMap.table.legal = true := by decide

/-- One row of R86's table: `FULL` enables every mnemonic. -/
theorem decode_full_value (m : Mnemonic) (a b : Byte) :
    decode Config.full [OpcodeMap.table.value m, a, b] = .ok (m.instr a b) :=
  decode_value (c := Config.full) OpcodeMap.table_legal m.mem_all a b []

/-- An instruction has as many operand cells as its format counts (R83, R84). -/
theorem Instr.operands_length (i : Instr) : i.operands.length = i.mnemonic.operandCount := by
  cases i <;> rfl

/-- `PCSET` by membership (R115). -/
theorem Mnemonic.pcSet_iff_mem (m : Mnemonic) :
    m.pcSet = true ↔ m ∈ [Mnemonic.call, .ret, .jmp, .jeq, .jne] := by
  cases m <;> decide

/-- Settles O1: each row is the decoder's rule at that row's mnemonic, an opcode value outside the table is one the
lookup does not find, and the high bits count the operands because the table is a legal map (R94). -/
theorem opcodeTableDecodes : Obligations.OpcodeTableDecodes := by
  refine ⟨fun a b => ?rows, fun ir a b h => ?unknown, fun i => ?operandCount, Mnemonic.pcSet_iff_mem⟩
  case rows =>
    exact ⟨decode_full_value .hlt a b, decode_full_value .ldi a b, decode_full_value .prn a b,
      decode_full_value .pra a b, decode_full_value .add a b, decode_full_value .mul a b,
      decode_full_value .push a b, decode_full_value .pop a b, decode_full_value .call a b,
      decode_full_value .ret a b, decode_full_value .cmp a b, decode_full_value .jmp a b,
      decode_full_value .jeq a b, decode_full_value .jne a b, decode_full_value .st a b⟩
  case unknown => exact decode_of_value_ne (fun m _ => h m) a b []
  case operandCount => rw [OpcodeMap.nops_value OpcodeMap.table_legal, i.operands_length]

end Sys2Proof

/-! ## HLT, PRN and PRA (R131 to R133) -/

namespace Sys2Proof.Machine

/-- A running machine in the last two cells stops in the fetch, whatever these cells hold (R112). -/
theorem step_of_last_two_cells {s : State} (hl : s.cfg.legal = true) (hr : s.stopped = false)
    (hlt : s.pc < s.cfg.memSize) (hge : s.cfg.memSize ≤ s.pc + 2) :
    step s = .next (s.raise (Stop.fetchOutOfRange s.cfg.memSize)) := by
  rcases plan_cases hl hr with ⟨hend, _⟩ | ⟨_, _, hplan⟩ | ⟨hfit, _, _⟩ | ⟨_, hfit, _, _⟩
  · omega
  · exact step_of_stop hplan
  · omega
  · omega

/-- A stopped machine is its own next state (R33). -/
theorem step_of_stopped {s : State} (hl : s.cfg.legal = true) (hs : s.stopped = true) : step s = .next s :=
  step_of_idle (plan_of_stopped hl hs)

/-- Settles O6: HLT's meaning is the `Halt` stop, which leaves a stopped machine under the same configuration; in the
last two cells the fetch's stop comes first. -/
theorem hltStopsTheMachine : Obligations.HltStopsTheMachine := by
  refine ⟨decode_full_value .hlt, fun _ => rfl, fun s t hl h => ?frozen, fun s hl hr hpc => ?lastCells⟩
  case frozen =>
    have ht : t = s.raise (Stop.halt s.pc) := execHlt_next h
    exact step_of_stopped (by rw [ht]; exact hl) (by rw [ht]; rfl)
  case lastCells => exact step_of_last_two_cells hl hr (by omega) (by omega)

/-- An emitting instruction of one operand appends its event and advances by 2 (R115, R199). -/
theorem finish_emit {m : Mnemonic} (hpc : m.pcSet = false) (hn : m.operandCount = 1) {s : State}
    (hl : s.cfg.opcodeMap.legal = true) (kind : EventKind) (v : Byte) :
    finish m (s.emit kind v) = .next { s with out := s.out ++ [⟨kind, v⟩], pc := s.pc + 2 } := by
  rw [finish_of_advance hpc (s := s.emit kind v) hl, hn]
  rfl

theorem firstBadIndex_cons_of_ge {a : Byte} (h : 8 ≤ a.toNat) (rest : List Byte) :
    firstBadIndex (a :: rest) = some a :=
  List.find?_cons_of_pos (by simpa using h)

/-- Settles O7: past its one register check PRN is a `NUM` emission with its advance. -/
theorem prnEmitsNumber : Obligations.PrnEmitsNumber := by
  refine fun s a hl => ⟨decode_full_value .prn a, fun ha => ?emits, fun ha => ?badIndex⟩
  case emits =>
    rw [exec, execPrn, requireReg_of_lt ha]
    exact finish_emit rfl rfl hl .num _
  case badIndex => exact exec_of_firstBadIndex (i := .prn a) (firstBadIndex_cons_of_ge ha []) s

/-- Settles O8: past its one register check PRA is a `CHR` emission with its advance. -/
theorem praEmitsCharacter : Obligations.PraEmitsCharacter := by
  refine fun s a hl => ⟨decode_full_value .pra a, fun ha => ?emits, fun ha => ?badIndex⟩
  case emits =>
    rw [exec, execPra, requireReg_of_lt ha]
    exact finish_emit rfl rfl hl .chr _
  case badIndex => exact exec_of_firstBadIndex (i := .pra a) (firstBadIndex_cons_of_ge ha []) s

end Sys2Proof.Machine

/-! ## LDI and ST (R141, R142) -/

namespace Sys2Proof.Machine

/-- An instruction of two operands outside `PCSET` advances by 3 (R82, R115). -/
theorem finish_of_two_operands {m : Mnemonic} (hpc : m.pcSet = false) (hn : m.operandCount = 2) {s : State}
    (hl : s.cfg.opcodeMap.legal = true) : finish m s = .next (s.setPc (s.pc + 3)) := by
  rw [finish_of_advance hpc hl, hn]

theorem firstBadIndex_cons_of_lt {a : Byte} (h : a.toNat < 8) (rest : List Byte) :
    firstBadIndex (a :: rest) = firstBadIndex rest :=
  List.find?_cons_of_neg (by simpa using h)

/-- With a good first index the second register cell is the one that stops. -/
theorem firstBadIndex_second {a b : Byte} (ha : a.toNat < 8) (hb : 8 ≤ b.toNat) : firstBadIndex [a, b] = some b := by
  rw [firstBadIndex_cons_of_lt ha, firstBadIndex_cons_of_ge hb]

/-- Past its register check LDI writes the immediate whole and advances (R141). -/
theorem exec_ldi_of_lt {a : Byte} (ha : a.toNat < 8) (b : Byte) {s : State} (hl : s.cfg.opcodeMap.legal = true) :
    exec (.ldi a b) s = .next ((s.setReg ⟨a.toNat, ha⟩ b).setPc (s.pc + 3)) := by
  rw [exec, execLdi, requireReg_of_lt ha]
  exact finish_of_two_operands rfl rfl hl

/-- Past its register checks ST is its address check, then the write with its advance (R142). -/
theorem exec_st_of_lt {a b : Byte} (ha : a.toNat < 8) (hb : b.toNat < 8) {s : State}
    (hl : s.cfg.opcodeMap.legal = true) :
    exec (.st a b) s = requireMem (s.reg ⟨a.toNat, ha⟩) s
      (.next ((s.memWrite (s.reg ⟨a.toNat, ha⟩).toNat (s.reg ⟨b.toNat, hb⟩)).setPc (s.pc + 3))) := by
  rw [exec, execSt, requireReg_of_lt ha, requireReg_of_lt hb]
  exact congrArg (requireMem _ s) (finish_of_two_operands rfl rfl hl)

/-- Settles O9: LDI is a register write with its advance, and PRN's rule (O7) in the state after it reads that register
back. -/
theorem ldiLoadsImmediate : Obligations.LdiLoadsImmediate := by
  refine fun s a b hl => ⟨decode_full_value .ldi a b, fun ha => ⟨exec_ldi_of_lt ha b hl, ?printed⟩, fun ha => ?badIndex⟩
  case printed =>
    obtain ⟨_, hprn, _⟩ := prnEmitsNumber { s with regs := s.regs.set a.toNat b, pc := s.pc + 3 } a hl
    rw [hprn ha, Vector.getElem_set_self]
  case badIndex => exact exec_of_firstBadIndex (i := .ldi a b) (firstBadIndex_cons_of_ge ha []) s

/-- Settles O10: the two register checks come first, in operand order, then the address check decides between the
store with its advance and the `MEM` stop. -/
theorem stStoresRegister : Obligations.StStoresRegister := by
  refine fun s a b hl => ⟨decode_full_value .st a b, fun ha hb => ⟨fun hm => ?stores, fun hm => ?badAddress⟩,
    fun ha => ?firstBad, fun ha hb => ?secondBad⟩
  case stores => exact (exec_st_of_lt ha hb hl).trans (requireMem_of_lt hm _)
  case badAddress => exact (exec_st_of_lt ha hb hl).trans (requireMem_of_ge hm _)
  case firstBad => exact exec_of_firstBadIndex (i := .st a b) (firstBadIndex_cons_of_ge ha [b]) s
  case secondBad => exact exec_of_firstBadIndex (i := .st a b) (firstBadIndex_second ha hb) s

end Sys2Proof.Machine

/-! ## ADD, MUL and CMP (R152 to R154) -/

namespace Sys2Proof.Machine

/-- Past both register checks an ALU instruction is the ALU's answer with its advance (R150). -/
theorem execAlu_of_lt {m : Mnemonic} (hpc : m.pcSet = false) (hn : m.operandCount = 2) {op : AluOp} {a b : Byte}
    (ha : a.toNat < 8) (hb : b.toNat < 8) {s u : State}
    (hu : aluApply op ⟨a.toNat, ha⟩ ⟨b.toNat, hb⟩ s = .ok u) (hl : u.cfg.opcodeMap.legal = true) :
    execAlu m op a b s = .next (u.setPc (u.pc + 3)) := by
  rw [execAlu, requireReg_of_lt ha, requireReg_of_lt hb, hu]
  exact finish_of_two_operands hpc hn hl

/-- Past its register checks CMP makes the equality bit the outcome of the comparison and advances (R154). -/
theorem exec_cmp_of_lt {a b : Byte} (ha : a.toNat < 8) (hb : b.toNat < 8) {s : State}
    (hl : s.cfg.opcodeMap.legal = true) :
    exec (.cmp a b) s =
      .next ((s.setFlagE (s.reg ⟨a.toNat, ha⟩ == s.reg ⟨b.toNat, hb⟩)).setPc (s.pc + 3)) :=
  execAlu_of_lt (m := .cmp) (op := .cmp) rfl rfl ha hb rfl hl

/-- An instruction of two register cells stops at the first when it is bad, else at the second (R24, R84). -/
theorem exec_stops_of_two_registers {i : Instr} {a b : Byte} (hi : i.regOperands = [a, b]) (s : State) :
    (8 ≤ a.toNat → exec i s = .next (s.raise (Stop.regOutOfRange a))) ∧
    (a.toNat < 8 → 8 ≤ b.toNat → exec i s = .next (s.raise (Stop.regOutOfRange b))) :=
  ⟨fun ha => exec_of_firstBadIndex (hi ▸ firstBadIndex_cons_of_ge ha [b]) s,
    fun ha hb => exec_of_firstBadIndex (hi ▸ firstBadIndex_second ha hb) s⟩

/-- Settles O11: past the register checks the ALU's sum, of both registers before the write, goes to the first one. -/
theorem addWrapsModulo256 : Obligations.AddWrapsModulo256 := by
  refine fun s a b hl => ⟨decode_full_value .add a b, fun ha hb => ?sum,
    exec_stops_of_two_registers (i := .add a b) rfl s⟩
  case sum => exact execAlu_of_lt (m := .add) (op := .add) rfl rfl ha hb rfl hl

/-- Settles O12: past the register checks the ALU's product, of both registers before the write, goes to the first
one. -/
theorem mulWrapsModulo256 : Obligations.MulWrapsModulo256 := by
  refine fun s a b hl => ⟨decode_full_value .mul a b, fun ha hb => ?product,
    exec_stops_of_two_registers (i := .mul a b) rfl s⟩
  case product => exact execAlu_of_lt (m := .mul) (op := .mul) rfl rfl ha hb rfl hl

/-- Settles O13: past the register checks CMP is one write of the equality bit, split by the two registers' values. -/
theorem cmpSetsEqualityBit : Obligations.CmpSetsEqualityBit := by
  refine fun s a b hl => ⟨decode_full_value .cmp a b, fun ha hb => ⟨fun heq => ?equal, fun hne => ?unequal⟩,
    exec_stops_of_two_registers (i := .cmp a b) rfl s⟩
  case equal =>
    have hbit : (s.reg ⟨a.toNat, ha⟩ == s.reg ⟨b.toNat, hb⟩) = true := beq_iff_eq.mpr heq
    rw [exec_cmp_of_lt ha hb hl, hbit]
    rfl
  case unequal =>
    have hbit : (s.reg ⟨a.toNat, ha⟩ == s.reg ⟨b.toNat, hb⟩) = false := beq_eq_false_iff_ne.mpr hne
    rw [exec_cmp_of_lt ha hb hl, hbit]
    rfl

end Sys2Proof.Machine

/-! ## PUSH and POP (R166, R167) -/

namespace Sys2Proof.Machine

/-- An instruction of one operand outside `PCSET` advances by 2 (R82, R115). -/
theorem finish_of_one_operand {m : Mnemonic} (hpc : m.pcSet = false) (hn : m.operandCount = 1) {s : State}
    (hl : s.cfg.opcodeMap.legal = true) : finish m s = .next (s.setPc (s.pc + 2)) := by
  rw [finish_of_advance hpc hl, hn]

/-- The push address as R22 writes it: `(x[7] - 1) mod 256`. -/
theorem State.pushAddr_eq (s : State) : s.pushAddr = BitVec.ofNat 8 (((s.regs[7]).toNat + 255) % 256) := by
  change s.regs[7] - 1#8 = _
  bv_omega

/-- The decrement writes the push address to the stack pointer and leaves the other registers (R22). -/
theorem State.decSp_reg (s : State) (r : Reg) :
    s.decSp.reg r = if r.val = 7 then s.pushAddr else s.reg r := by
  by_cases hr : r.val = 7
  · obtain rfl : r = sp := Fin.ext hr
    exact s.setReg_reg_self sp _
  · rw [if_neg hr]
    exact s.setReg_reg_ne _ fun h => hr (congrArg Fin.val h.symm)

/-- The stack pointer's increment as R22 writes it: `(x[7] + 1) mod 256`. -/
theorem byte_add_one_eq (v : Byte) : v + 1#8 = BitVec.ofNat 8 ((v.toNat + 1) % 256) := by
  bv_omega

/-- Past its register check PUSH is the check of the push address, then the decrement, the store of the register as
the decrement leaves it, and the advance (R166). -/
theorem exec_push_of_lt {a : Byte} (ha : a.toNat < 8) {s : State} (hl : s.cfg.opcodeMap.legal = true) :
    exec (.push a) s = requireMem s.pushAddr s
      (.next ((s.decSp.memWrite s.pushAddr.toNat (s.decSp.reg ⟨a.toNat, ha⟩)).setPc (s.pc + 2))) := by
  have hsp : s.decSp.reg sp = s.pushAddr := s.decSp_reg sp
  simp only [exec, execPush, requireReg_of_lt ha, hsp]
  exact congrArg (requireMem _ s) (finish_of_one_operand rfl rfl hl)

/-- Past its register check POP is the check of the pop address, then the register write, the increment and the
advance (R167). -/
theorem exec_pop_of_lt {a : Byte} (ha : a.toNat < 8) {s : State} (hl : s.cfg.opcodeMap.legal = true) :
    exec (.pop a) s = requireMem s.popAddr s
      (.next ((s.setReg ⟨a.toNat, ha⟩ (s.memRead s.popAddr.toNat)).incSp.setPc (s.pc + 2))) := by
  rw [exec, execPop, requireReg_of_lt ha]
  exact congrArg (requireMem _ s) (finish_of_one_operand rfl rfl hl)

/-- A register write other than to the stack pointer, then the increment: the stack pointer ends one above its old
value. -/
theorem State.setReg_incSp_of_ne (s : State) {r : Reg} (hr : r ≠ sp) (v : Byte) :
    (s.setReg r v).incSp = (s.setReg r v).setReg sp (BitVec.ofNat 8 (((s.regs[7]).toNat + 1) % 256)) := by
  rw [State.incSp_eq, s.setReg_reg_ne v hr, byte_add_one_eq]
  rfl

/-- A write to the stack pointer, then the increment: it ends one above the written value. -/
theorem State.setReg_sp_incSp (s : State) (v : Byte) :
    (s.setReg sp v).incSp = s.setReg sp (BitVec.ofNat 8 ((v.toNat + 1) % 256)) := by
  rw [State.incSp_eq, s.setReg_reg_self sp v, byte_add_one_eq]
  simp only [State.setReg, Vector.set_set]

/-- Settles O14: after the register check, the address check decides between the store of the register read after the
decrement, which for R7 is the push address itself, and the `MEM` stop. -/
theorem pushStoresBelowTheStackPointer : Obligations.PushStoresBelowTheStackPointer := by
  intro s a d hl hd
  obtain rfl : d = s.pushAddr := hd.trans s.pushAddr_eq.symm
  refine ⟨decode_full_value .push a, fun ha => ⟨fun hm => ?stores, fun hm => ?badAddress⟩, fun ha => ?badIndex⟩
  case stores =>
    rw [exec_push_of_lt ha hl, requireMem_of_lt hm, s.decSp_reg]
    rfl
  case badAddress => exact (exec_push_of_lt ha hl).trans (requireMem_of_ge hm _)
  case badIndex => exact exec_of_firstBadIndex (i := .push a) (firstBadIndex_cons_of_ge ha []) s

/-- Settles O15: after the register check, the address check decides between the pop and the `MEM` stop; whether the
increment sees the old stack pointer or the popped value is whether the register is another than R7. -/
theorem popLoadsFromTheStackPointer : Obligations.PopLoadsFromTheStackPointer := by
  refine fun s a hl => ⟨decode_full_value .pop a, fun ha => ⟨fun hm => ⟨fun hne => ?other, fun heq => ?stackPointer⟩,
    fun hm => ?badAddress⟩, fun ha => ?badIndex⟩
  case other =>
    have hr : (⟨a.toNat, ha⟩ : Reg) ≠ sp := fun h => hne (congrArg Fin.val h)
    rw [exec_pop_of_lt ha hl, requireMem_of_lt (addr := s.popAddr) hm, s.setReg_incSp_of_ne hr]
    rfl
  case stackPointer =>
    have hr : (⟨a.toNat, ha⟩ : Reg) = sp := Fin.ext heq
    rw [exec_pop_of_lt ha hl, requireMem_of_lt (addr := s.popAddr) hm, hr, s.setReg_sp_incSp]
    rfl
  case badAddress => exact (exec_pop_of_lt ha hl).trans (requireMem_of_ge hm _)
  case badIndex => exact exec_of_firstBadIndex (i := .pop a) (firstBadIndex_cons_of_ge ha []) s

end Sys2Proof.Machine

/-! ## CALL and RET (R176, R177) -/

namespace Sys2Proof.Machine

/-- An instruction whose one register cell is 8 or more stops at it (R24). -/
theorem exec_stops_of_one_register {i : Instr} {a : Byte} (hi : i.regOperands = [a]) (s : State) (ha : 8 ≤ a.toNat) :
    exec i s = .next (s.raise (Stop.regOutOfRange a)) :=
  exec_of_firstBadIndex (hi ▸ firstBadIndex_cons_of_ge ha []) s

/-- Past its register check CALL is the check of the push address, then the check of the return address, then the
decrement, the store and the jump to the register as the decrement leaves it (R176). -/
theorem exec_call_of_lt {a : Byte} (ha : a.toNat < 8) (s : State) :
    exec (.call a) s = requireMem s.pushAddr s (requireReturnAddress (s.pc + 2) fun ret =>
      .next ((s.decSp.memWrite s.pushAddr.toNat ret).setPc (s.decSp.reg ⟨a.toNat, ha⟩).toNat)) := by
  have hsp : s.decSp.reg sp = s.pushAddr := s.decSp_reg sp
  simp only [exec, execCall, requireReg_of_lt ha, hsp]
  rfl

/-- RET is the check of the pop address, then the jump to the cell there and the increment (R177). -/
theorem exec_ret_eq (s : State) :
    exec .ret s = requireMem s.popAddr s
      (.next ((s.setPc (s.memRead s.popAddr.toNat).toNat).setReg sp
        (BitVec.ofNat 8 (((s.regs[7]).toNat + 1) % 256)))) := by
  rw [← byte_add_one_eq]
  rfl

/-- Settles O16: after the register check, the address check decides between the `MEM` stop and the call, whose target,
the register read after the decrement, is for R7 the push address itself. -/
theorem callPushesReturnAddress : Obligations.CallPushesReturnAddress := by
  intro s a d hd
  obtain rfl : d = s.pushAddr := hd.trans s.pushAddr_eq.symm
  refine ⟨decode_full_value .call a, fun ha => ⟨fun hm hpc => ?calls, fun hm => ?badAddress⟩,
    exec_stops_of_one_register (i := .call a) rfl s⟩
  case calls =>
    have hret : s.pc + 2 ≤ 255 := by omega
    rw [exec_call_of_lt ha, requireMem_of_lt hm, requireReturnAddress_of_le hret, s.decSp_reg, apply_ite BitVec.toNat]
    rfl
  case badAddress => exact (exec_call_of_lt ha s).trans (requireMem_of_ge hm _)

/-- Settles O17: the address check decides between the return, with the stack pointer one up, and the `MEM` stop. -/
theorem retPopsTheProgramCounter : Obligations.RetPopsTheProgramCounter := by
  refine ⟨decode_full_value .ret, fun s => ⟨fun hm => ?returns, fun hm => ?badAddress⟩⟩
  case returns => exact (exec_ret_eq s).trans (requireMem_of_lt (addr := s.popAddr) hm _)
  case badAddress => exact (exec_ret_eq s).trans (requireMem_of_ge (addr := s.popAddr) hm _)

end Sys2Proof.Machine

/-! ## JMP, JEQ and JNE (R178 to R180) -/

namespace Sys2Proof.Machine

/-- Past its register check JMP is the jump (R178). -/
theorem exec_jmp_of_lt {a : Byte} (ha : a.toNat < 8) (s : State) :
    exec (.jmp a) s = .next (s.setPc (s.reg ⟨a.toNat, ha⟩).toNat) := by
  rw [exec, execJmp, requireReg_of_lt ha, finish_of_pcSet rfl]

/-- Past its register check a conditional jump in `PCSET` goes to the register or on by 2, as its condition says. -/
theorem jumpIf_of_lt {m : Mnemonic} (hm : m.pcSet = true) (taken : Bool) {a : Byte} (ha : a.toNat < 8) (s : State) :
    jumpIf m taken a s = .next (s.setPc (if taken then (s.reg ⟨a.toNat, ha⟩).toNat else s.pc + 2)) := by
  rw [jumpIf, requireReg_of_lt ha, finish_of_pcSet hm]

/-- Past its register check JEQ is decided by the equality bit (R179). -/
theorem exec_jeq_of_lt {a : Byte} (ha : a.toNat < 8) (s : State) :
    exec (.jeq a) s = .next (s.setPc (if s.flagE then (s.reg ⟨a.toNat, ha⟩).toNat else s.pc + 2)) :=
  jumpIf_of_lt (m := .jeq) rfl s.flagE ha s

/-- Past its register check JNE is decided by the equality bit's negation (R180). -/
theorem exec_jne_of_lt {a : Byte} (ha : a.toNat < 8) (s : State) :
    exec (.jne a) s = .next (s.setPc (if !s.flagE then (s.reg ⟨a.toNat, ha⟩).toNat else s.pc + 2)) :=
  jumpIf_of_lt (m := .jne) rfl (!s.flagE) ha s

/-- Settles O18: past its one register check JMP is a write of the program counter. -/
theorem jmpGoesToRegister : Obligations.JmpGoesToRegister := fun s a =>
  ⟨decode_full_value .jmp a, fun ha => exec_jmp_of_lt ha s, exec_stops_of_one_register (i := .jmp a) rfl s⟩

/-- Settles O19: the register check comes before the equality bit is looked at; past it the bit decides the target. -/
theorem jeqJumpsOnEquality : Obligations.JeqJumpsOnEquality := by
  refine fun s a => ⟨decode_full_value .jeq a, fun ha => ⟨fun hset => ?taken, fun hclear => ?fallsThrough⟩,
    exec_stops_of_one_register (i := .jeq a) rfl s⟩
  case taken =>
    rw [exec_jeq_of_lt ha, State.flagE, hset]
    rfl
  case fallsThrough =>
    rw [exec_jeq_of_lt ha, State.flagE, hclear]
    rfl

/-- Settles O20: as JEQ, with the target decided by the equality bit's negation. -/
theorem jneJumpsOnInequality : Obligations.JneJumpsOnInequality := by
  refine fun s a => ⟨decode_full_value .jne a, fun ha => ⟨fun hclear => ?taken, fun hset => ?fallsThrough⟩,
    exec_stops_of_one_register (i := .jne a) rfl s⟩
  case taken =>
    rw [exec_jne_of_lt ha, State.flagE, hclear]
    rfl
  case fallsThrough =>
    rw [exec_jne_of_lt ha, State.flagE, hset]
    rfl

end Sys2Proof.Machine

/-! ## A stop is the whole difference (R222) -/

namespace Sys2Proof.Machine

/-! The handlers are built from checks on the state before and an update ended by `finish`: one rule for each, with
which the stop record is followed through a handler along its text. -/

theorem recordKeptOrRaised_of_requireReg {k : Byte} {s t : State} {go : Reg → Result}
    (h : requireReg k s go = .next t) (hgo : ∀ r, go r = .next t → recordKeptOrRaised s t) :
    recordKeptOrRaised s t := by
  rcases requireReg_next h with ⟨_, hnext⟩ | ⟨_, hraised⟩
  · exact hgo _ hnext
  · exact .inr ⟨_, hraised⟩

theorem recordKeptOrRaised_of_requireMem {addr : Byte} {s t : State} {go : Result}
    (h : requireMem addr s go = .next t) (hgo : go = .next t → recordKeptOrRaised s t) :
    recordKeptOrRaised s t := by
  rcases requireMem_next h with ⟨_, hnext⟩ | ⟨_, hraised⟩
  · exact hgo hnext
  · exact .inr ⟨_, hraised⟩

/-- The end of an instruction writes no stop record, so it keeps the record that the update before it kept. -/
theorem recordKeptOrRaised_of_finish {m : Mnemonic} {s t u : State} (h : finish m u = .next t)
    (hu : u.stopped = s.stopped ∧ u.cause = s.cause ∧ u.info = s.info) : recordKeptOrRaised s t := by
  rw [finish_next h]
  split <;> exact .inl hu

/-- Every handler leaves the stop record alone or raises on the state it was given: its checks all stand before its
first effect (R10, R222). -/
theorem exec_recordKeptOrRaised {i : Instr} {s t : State} (h : exec i s = .next t) : recordKeptOrRaised s t := by
  cases i with
  | hlt => exact .inr ⟨_, execHlt_next h⟩
  | ldi | prn | pra | jmp | jeq | jne =>
    simp only [exec, execLdi, execPrn, execPra, execJmp, execJeq, execJne, jumpIf] at h
    exact recordKeptOrRaised_of_requireReg h fun _ h => recordKeptOrRaised_of_finish h ⟨rfl, rfl, rfl⟩
  | add | mul | cmp =>
    simp only [exec, execAdd, execMul, execCmp, execAlu, aluApply] at h
    exact recordKeptOrRaised_of_requireReg h fun _ h => recordKeptOrRaised_of_requireReg h fun _ h =>
      recordKeptOrRaised_of_finish h ⟨rfl, rfl, rfl⟩
  | push | pop =>
    simp only [exec, execPush, execPop] at h
    exact recordKeptOrRaised_of_requireReg h fun _ h => recordKeptOrRaised_of_requireMem h fun h =>
      recordKeptOrRaised_of_finish h ⟨rfl, rfl, rfl⟩
  | call =>
    simp only [exec, execCall] at h
    exact recordKeptOrRaised_of_requireReg h fun _ h => recordKeptOrRaised_of_requireMem h fun h =>
      recordKeptOrRaised_of_finish (requireReturnAddress_next h).2 ⟨rfl, rfl, rfl⟩
  | ret =>
    simp only [exec, execRet] at h
    exact recordKeptOrRaised_of_requireMem h fun h => recordKeptOrRaised_of_finish h ⟨rfl, rfl, rfl⟩
  | st =>
    simp only [exec, execSt] at h
    exact recordKeptOrRaised_of_requireReg h fun _ h => recordKeptOrRaised_of_requireReg h fun _ h =>
      recordKeptOrRaised_of_requireMem h fun h => recordKeptOrRaised_of_finish h ⟨rfl, rfl, rfl⟩

/-- The same for a whole step: a stop before the handler is raised on the state before too. -/
theorem step_recordKeptOrRaised {s t : State} (h : step s = .next t) : recordKeptOrRaised s t := by
  obtain ⟨_, ⟨_, rfl⟩ | ⟨_, _, hpc⟩ | ⟨_, _, _, hfetch⟩ | ⟨_, _, _, hopcode⟩ | ⟨_, _, _, _, hexec⟩⟩ := step_next h
  · exact .inl ⟨rfl, rfl, rfl⟩
  · exact .inr ⟨_, hpc⟩
  · exact .inr ⟨_, hfetch⟩
  · exact .inr ⟨_, hopcode⟩
  · exact exec_recordKeptOrRaised hexec

/-- Settles O32: a step from a running to a stopped state has not kept the stop record, so it raised, and the whole
difference is the record. -/
theorem stopsArePrecise : Obligations.StopsArePrecise := by
  intro s t hrunning h hstopped
  rcases step_recordKeptOrRaised h with ⟨hkept, _, _⟩ | ⟨_, rfl⟩
  · exact absurd (hkept.symm.trans hstopped) (by simp [hrunning])
  · exact ⟨rfl, rfl, rfl, rfl, rfl, rfl⟩

end Sys2Proof.Machine

/-! ## The decoder and the encoder agree (R82, R83, R88, R94) -/

namespace Sys2Proof

/-- An instruction's operand cells followed by two more cells begin with the two cells the decoder reads, and over these
the mnemonic's format rebuilds the instruction (R84, R95). -/
theorem Instr.operands_append_eq (i : Instr) (p q : Byte) (rest : List Byte) :
    ∃ a b tail, i.operands ++ p :: q :: rest = a :: b :: tail ∧ i.mnemonic.instr a b = i := by
  cases i <;> exact ⟨_, _, _, rfl, rfl⟩

/-- Settles O2: the operand cells and what follows give the decoder its two cells, and the opcode value of an enabled
mnemonic finds that mnemonic. -/
theorem decodeEncodeRoundTrip : Obligations.DecodeEncodeRoundTrip := by
  intro c i p q rest hl hm
  obtain ⟨a, b, tail, hcells, hi⟩ := i.operands_append_eq p q rest
  calc decode c (encode c.opcodeMap i ++ p :: q :: rest)
      = decode c (c.opcodeMap.value i.mnemonic :: a :: b :: tail) := by rw [encode, List.cons_append, hcells]
    _ = .ok (i.mnemonic.instr a b) := decode_value hl hm a b tail
    _ = .ok i := by rw [hi]

/-- An instruction keeps the leading ones of the two fetched operand cells (R84). -/
theorem Mnemonic.instr_operands_isPrefix (m : Mnemonic) (a b : Byte) (rest : List Byte) :
    (m.instr a b).operands <+: a :: b :: rest := by
  cases m <;> simp [Mnemonic.instr, Instr.operands]

/-- What a run of cells that decodes looks like: three cells at least, the first one the opcode of an enabled mnemonic. -/
theorem decode_ok {c : Config} {cells : List Byte} {i : Instr} (h : decode c cells = .ok i) :
    ∃ m a b rest, m ∈ c.enabled ∧ cells = c.opcodeMap.value m :: a :: b :: rest ∧ i = m.instr a b := by
  match cells, h with
  | ir :: a :: b :: rest, h =>
    rcases decodeCells_cases c ir a b with ⟨m, hm, hdecode⟩ | ⟨_, hdecode⟩
    · obtain ⟨rfl, henabled⟩ := Config.lookup_some hm
      exact ⟨m, a, b, rest, henabled, rfl, Except.ok.inj (h.symm.trans hdecode)⟩
    · exact absurd (h.symm.trans hdecode) (by simp)

/-- Settles O3: the opcode cell is the found mnemonic's value, and its operands are the leading cells after it. -/
theorem encodeDecodeRoundTrip : Obligations.EncodeDecodeRoundTrip := by
  intro c cells i h
  obtain ⟨m, a, b, rest, henabled, rfl, rfl⟩ := decode_ok h
  rw [encode, m.instr_mnemonic]
  exact ⟨henabled, List.cons_prefix_cons.mpr ⟨rfl, m.instr_operands_isPrefix a b rest⟩⟩

/-- Settles O4: the decoder answers the error exactly when the lookup finds nothing. -/
theorem unregisteredOpcodesAreUnknown : Obligations.UnregisteredOpcodesAreUnknown := by
  intro c ir a b
  rw [← Config.lookup_none_iff]
  rcases decodeCells_cases c ir a b with ⟨m, hm, hdecode⟩ | ⟨hnone, hdecode⟩
  · simp [hm, hdecode]
  · simp [hnone, hdecode]

/-- `NOPS` as arithmetic: the quotient by 64 (R81). -/
theorem nops_eq_div (ir : Byte) : nops ir = ir.toNat / 64 := by
  have hmask : nops ir = (ir.toNat >>> 6) &&& (2 ^ 2 - 1) := by simp [nops]
  rw [hmask, Nat.and_two_pow_sub_one_eq_mod, Nat.shiftRight_eq_div_pow]
  omega

/-- `NOPS` is the value of bits 7:6 (R81). -/
theorem nops_eq_extractLsb' (ir : Byte) : nops ir = (ir.extractLsb' 6 2).toNat := by
  rw [nops_eq_div, BitVec.extractLsb'_toNat, Nat.shiftRight_eq_div_pow]
  omega

theorem Mnemonic.operandCount_le_two (m : Mnemonic) : m.operandCount ≤ 2 := by
  cases m <;> decide

/-- Settles O5: under a legal map the high bits of an opcode are its operand count, which is at most 2, while those of
an opcode of 0xC0 or more are 3. -/
theorem instructionLengthIsHighBitsPlusOne : Obligations.InstructionLengthIsHighBitsPlusOne := by
  refine fun c hl => ⟨fun i => ⟨c.opcodeMap.value i.mnemonic, rfl, ?length, ?atMostThree⟩, fun ir hir => ?unregistered⟩
  case length => rw [encode, List.length_cons, i.operands_length, ← nops_eq_extractLsb', OpcodeMap.nops_value hl]
  case atMostThree =>
    rw [encode, List.length_cons, i.operands_length]
    exact Nat.succ_le_succ i.mnemonic.operandCount_le_two
  case unregistered =>
    refine Config.lookup_none_iff.mpr fun m _ hvalue => ?_
    have hnops : ir.toNat / 64 = m.operandCount := by rw [← nops_eq_div, ← hvalue, OpcodeMap.nops_value hl]
    have hcount := m.operandCount_le_two
    omega

end Sys2Proof

/-! ## Everything an instruction, and a step, can do

One relation for the stops an instruction can take, one for its completion, and for each field of the state a lemma that
says what the completion of any instruction does to it. The rules of the whole machine and the frames follow from these. -/

namespace Sys2Proof.Machine

/-- The stops that an instruction takes: HLT's own, a register cell that names no register, and a data address outside
memory (R217). -/
inductive ExecStop (s : State) : Instr → Stop → Prop
  | halt : ExecStop s .hlt (Stop.halt s.pc)
  | reg {i : Instr} {k : Byte} : k ∈ i.regOperands → 8 ≤ k.toNat → ExecStop s i (Stop.regOutOfRange k)
  | mem {i : Instr} {d : Byte} : dataAddress i s = some d → s.cfg.memSize ≤ d.toNat →
      ExecStop s i (Stop.memOutOfRange d)

/-- The whole effect of each instruction that runs to its end. -/
inductive Completes (s : State) : Instr → State → Prop
  | ldi {a b : Byte} (ha : a.toNat < 8) : Completes s (.ldi a b) ((s.setReg ⟨a.toNat, ha⟩ b).advance .ldi)
  | prn {a : Byte} (ha : a.toNat < 8) : Completes s (.prn a) ((s.emit .num (s.reg ⟨a.toNat, ha⟩)).advance .prn)
  | pra {a : Byte} (ha : a.toNat < 8) : Completes s (.pra a) ((s.emit .chr (s.reg ⟨a.toNat, ha⟩)).advance .pra)
  | add {a b : Byte} (ha : a.toNat < 8) (hb : b.toNat < 8) : Completes s (.add a b)
      ((s.setReg ⟨a.toNat, ha⟩ (addByte (s.reg ⟨a.toNat, ha⟩) (s.reg ⟨b.toNat, hb⟩))).advance .add)
  | mul {a b : Byte} (ha : a.toNat < 8) (hb : b.toNat < 8) : Completes s (.mul a b)
      ((s.setReg ⟨a.toNat, ha⟩ (mulByte (s.reg ⟨a.toNat, ha⟩) (s.reg ⟨b.toNat, hb⟩))).advance .mul)
  | cmp {a b : Byte} (ha : a.toNat < 8) (hb : b.toNat < 8) : Completes s (.cmp a b)
      ((s.setFlagE (s.reg ⟨a.toNat, ha⟩ == s.reg ⟨b.toNat, hb⟩)).advance .cmp)
  | push {a : Byte} (ha : a.toNat < 8) (hm : s.pushAddr.toNat < s.cfg.memSize) : Completes s (.push a)
      ((s.decSp.memWrite s.pushAddr.toNat (s.decSp.reg ⟨a.toNat, ha⟩)).advance .push)
  | pop {a : Byte} (ha : a.toNat < 8) (hm : s.popAddr.toNat < s.cfg.memSize) : Completes s (.pop a)
      ((s.setReg ⟨a.toNat, ha⟩ (s.memRead s.popAddr.toNat)).incSp.advance .pop)
  | call {a : Byte} (ha : a.toNat < 8) (hm : s.pushAddr.toNat < s.cfg.memSize) : Completes s (.call a)
      ((s.decSp.memWrite s.pushAddr.toNat (BitVec.ofNat 8 (s.pc + 2))).setPc (s.decSp.reg ⟨a.toNat, ha⟩).toNat)
  | ret (hm : s.popAddr.toNat < s.cfg.memSize) :
      Completes s .ret (s.setPc (s.memRead s.popAddr.toNat).toNat).incSp
  | jmp {a : Byte} (ha : a.toNat < 8) : Completes s (.jmp a) (s.setPc (s.reg ⟨a.toNat, ha⟩).toNat)
  | jeq {a : Byte} (ha : a.toNat < 8) : Completes s (.jeq a)
      (s.setPc (if s.flagE then (s.reg ⟨a.toNat, ha⟩).toNat else s.pc + 2))
  | jne {a : Byte} (ha : a.toNat < 8) : Completes s (.jne a)
      (s.setPc (if !s.flagE then (s.reg ⟨a.toNat, ha⟩).toNat else s.pc + 2))
  | st {a b : Byte} (ha : a.toNat < 8) (hb : b.toNat < 8) (hm : (s.reg ⟨a.toNat, ha⟩).toNat < s.cfg.memSize) :
      Completes s (.st a b)
        ((s.memWrite (s.reg ⟨a.toNat, ha⟩).toNat (s.reg ⟨b.toNat, hb⟩)).advance .st)

/-- An instruction that stops answers the state before with one of its stops raised. -/
def StopsIn (s : State) (i : Instr) (t : State) : Prop := ∃ stop, ExecStop s i stop ∧ t = s.raise stop

theorem StopsIn.reg {s t : State} {i : Instr} {k : Byte} (hk : k ∈ i.regOperands)
    (h : 8 ≤ k.toNat ∧ t = s.raise (Stop.regOutOfRange k)) : StopsIn s i t :=
  ⟨_, .reg hk h.1, h.2⟩

theorem StopsIn.mem {s t : State} {i : Instr} {d : Byte} (hd : dataAddress i s = some d)
    (h : s.cfg.memSize ≤ d.toNat ∧ t = s.raise (Stop.memOutOfRange d)) : StopsIn s i t :=
  ⟨_, .mem hd h.1, h.2⟩

/-- The inversion of `exec`: an instruction that answers a next state has taken one of its stops or has completed. -/
theorem exec_next {i : Instr} {s t : State} (h : exec i s = .next t) : StopsIn s i t ∨ Completes s i t := by
  cases i with
  | hlt => exact .inl ⟨_, .halt, execHlt_next h⟩
  | ldi a b =>
    rcases execLdi_next h with h | ⟨ha, rfl⟩
    · exact .inl (.reg (.head _) h)
    · exact .inr (.ldi ha)
  | prn a =>
    rcases execPrn_next h with h | ⟨ha, rfl⟩
    · exact .inl (.reg (.head _) h)
    · exact .inr (.prn ha)
  | pra a =>
    rcases execPra_next h with h | ⟨ha, rfl⟩
    · exact .inl (.reg (.head _) h)
    · exact .inr (.pra ha)
  | add a b =>
    rcases execAdd_next h with h | ⟨_, h⟩ | ⟨ha, hb, rfl⟩
    · exact .inl (.reg (.head _) h)
    · exact .inl (.reg (.tail _ (.head _)) h)
    · exact .inr (.add ha hb)
  | mul a b =>
    rcases execMul_next h with h | ⟨_, h⟩ | ⟨ha, hb, rfl⟩
    · exact .inl (.reg (.head _) h)
    · exact .inl (.reg (.tail _ (.head _)) h)
    · exact .inr (.mul ha hb)
  | cmp a b =>
    rcases execCmp_next h with h | ⟨_, h⟩ | ⟨ha, hb, rfl⟩
    · exact .inl (.reg (.head _) h)
    · exact .inl (.reg (.tail _ (.head _)) h)
    · exact .inr (.cmp ha hb)
  | push a =>
    rcases execPush_next h with h | ⟨_, h⟩ | ⟨ha, hm, rfl⟩
    · exact .inl (.reg (.head _) h)
    · exact .inl (.mem rfl h)
    · exact .inr (.push ha hm)
  | pop a =>
    rcases execPop_next h with h | ⟨_, h⟩ | ⟨ha, hm, rfl⟩
    · exact .inl (.reg (.head _) h)
    · exact .inl (.mem rfl h)
    · exact .inr (.pop ha hm)
  | call a =>
    rcases execCall_next h with h | ⟨_, h⟩ | ⟨ha, hm, _, rfl⟩
    · exact .inl (.reg (.head _) h)
    · exact .inl (.mem rfl h)
    · exact .inr (.call ha hm)
  | ret =>
    rcases execRet_next h with h | ⟨hm, rfl⟩
    · exact .inl (.mem rfl h)
    · exact .inr (.ret hm)
  | jmp a =>
    rcases execJmp_next h with h | ⟨ha, rfl⟩
    · exact .inl (.reg (.head _) h)
    · exact .inr (.jmp ha)
  | jeq a =>
    rcases execJeq_next h with h | ⟨ha, rfl⟩
    · exact .inl (.reg (.head _) h)
    · exact .inr (.jeq ha)
  | jne a =>
    rcases execJne_next h with h | ⟨ha, rfl⟩
    · exact .inl (.reg (.head _) h)
    · exact .inr (.jne ha)
  | st a b =>
    rcases execSt_next h with h | ⟨_, h⟩ | ⟨ha, _, h⟩ | ⟨ha, hb, hm, rfl⟩
    · exact .inl (.reg (.head _) h)
    · exact .inl (.reg (.tail _ (.head _)) h)
    · exact .inl (.mem (dif_pos ha) h)
    · exact .inr (.st ha hb hm)

/-! What a completed instruction does to each field. -/

section Fields

variable {s t : State} {i : Instr}

theorem Completes.cfg_eq (h : Completes s i t) : t.cfg = s.cfg := by
  cases h <;> rfl

theorem Completes.stopped_eq (h : Completes s i t) : t.stopped = s.stopped := by
  cases h <;> rfl

theorem Completes.cause_eq (h : Completes s i t) : t.cause = s.cause := by
  cases h <;> rfl

theorem Completes.info_eq (h : Completes s i t) : t.info = s.info := by
  cases h <;> rfl

/-- Outside `PCSET` the program counter advances (R115); an instruction of `PCSET` leaves the value of a cell there, or
goes on by 2. -/
theorem Completes.pc_cases (h : Completes s i t) :
    (i.mnemonic.pcSet = false ∧ t.pc = s.pc + nops (s.cfg.opcodeMap.value i.mnemonic) + 1) ∨
    (i.mnemonic.pcSet = true ∧ (t.pc = s.pc + 2 ∨ ∃ v : Byte, t.pc = v.toNat)) := by
  cases h with
  | call | ret | jmp => exact .inr ⟨rfl, .inr ⟨_, rfl⟩⟩
  | jeq | jne =>
    refine .inr ⟨rfl, ?_⟩
    rw [State.setPc_pc]
    split
    · exact .inr ⟨_, rfl⟩
    · exact .inl rfl
  | ldi | prn | pra | add | mul | cmp | push | pop | st => exact .inl ⟨rfl, rfl⟩

/-- Only CMP writes the flags, and it writes the equality bit (R31). -/
theorem Completes.fl_cases (h : Completes s i t) :
    t.fl = s.fl ∨ (i.mnemonic = .cmp ∧ ∃ e, t.fl = (s.setFlagE e).fl) := by
  cases h with
  | cmp => exact .inr ⟨rfl, _, rfl⟩
  | ldi | prn | pra | add | mul | push | pop | call | ret | jmp | jeq | jne | st => exact .inl rfl

/-- Only PRN and PRA emit, one event each (R199). -/
theorem Completes.out_cases (h : Completes s i t) :
    t.out = s.out ∨
    ∃ a, (i = .prn a ∧ ∃ v, t.out = s.out ++ [⟨.num, v⟩]) ∨ (i = .pra a ∧ ∃ v, t.out = s.out ++ [⟨.chr, v⟩]) := by
  cases h with
  | prn => exact .inr ⟨_, .inl ⟨rfl, _, rfl⟩⟩
  | pra => exact .inr ⟨_, .inr ⟨rfl, _, rfl⟩⟩
  | ldi | add | mul | cmp | push | pop | call | ret | jmp | jeq | jne | st => exact .inl rfl

/-- Only ST, PUSH and CALL write memory, one cell, at their data address, which has passed its check (R51, R54). -/
theorem Completes.mem_cases (h : Completes s i t) :
    t.mem = s.mem ∨
    ((i.mnemonic = .st ∨ i.mnemonic = .push ∨ i.mnemonic = .call) ∧
      ∃ d v, dataAddress i s = some d ∧ d.toNat < s.cfg.memSize ∧ t.mem = Memory.write s.mem d.toNat v) := by
  cases h with
  | st ha _ hm => exact .inr ⟨.inl rfl, _, _, dif_pos ha, hm, rfl⟩
  | push _ hm => exact .inr ⟨.inr (.inl rfl), _, _, rfl, hm, rfl⟩
  | call _ hm => exact .inr ⟨.inr (.inr rfl), _, _, rfl, hm, rfl⟩
  | ldi | prn | pra | add | mul | cmp | pop | ret | jmp | jeq | jne => exact .inl rfl

end Fields

/-! ## The step -/

/-- The stops that a step of a running machine takes, before the handler and in it (R217). -/
inductive StepStop (s : State) : Stop → Prop
  | pcOutOfRange : s.cfg.memSize ≤ s.pc → StepStop s (Stop.pcOutOfRange s.pc)
  | fetch : s.pc < s.cfg.memSize → s.cfg.memSize ≤ s.pc + 2 → StepStop s (Stop.fetchOutOfRange s.cfg.memSize)
  | unknownOpcode : s.cfg.lookup (s.memRead s.pc) = none → StepStop s (Stop.unknownOpcode (s.memRead s.pc))
  | handler {i : Instr} {stop : Stop} :
      decode s.cfg [s.memRead s.pc, s.memRead (s.pc + 1), s.memRead (s.pc + 2)] = .ok i → ExecStop s i stop →
      StepStop s stop

/-- The instruction the lookup finds is the one the three fetched cells decode to. -/
theorem decode_of_lookup {c : Config} {ir : Byte} {m : Mnemonic} (h : c.lookup ir = some m) (a b : Byte) :
    decode c [ir, a, b] = .ok (m.instr a b) := by
  simp only [decode, decodeCells, h]

/-- The inversion of `step`: the machine is stopped and left as it is, or it takes a stop, or it completes the instruction
that the fetched cells decode to. -/
theorem step_cases {s t : State} (h : step s = .next t) :
    (s.stopped = true ∧ t = s) ∨
    (s.stopped = false ∧ ∃ stop, StepStop s stop ∧ t = s.raise stop) ∨
    (s.stopped = false ∧ s.pc + 2 < s.cfg.memSize ∧
      ∃ i, decode s.cfg [s.memRead s.pc, s.memRead (s.pc + 1), s.memRead (s.pc + 2)] = .ok i ∧ Completes s i t) := by
  obtain ⟨_, hidle | ⟨hr, hpc, ht⟩ | ⟨hr, hlt, hge, ht⟩ | ⟨hr, _, hnone, ht⟩ | ⟨m, hr, hfit, hm, hexec⟩⟩ := step_next h
  · exact .inl hidle
  · exact .inr (.inl ⟨hr, _, .pcOutOfRange hpc, ht⟩)
  · exact .inr (.inl ⟨hr, _, .fetch hlt hge, ht⟩)
  · exact .inr (.inl ⟨hr, _, .unknownOpcode hnone, ht⟩)
  · have hdecode := decode_of_lookup hm (s.memRead (s.pc + 1)) (s.memRead (s.pc + 2))
    rcases exec_next hexec with ⟨stop, hstop, ht⟩ | hcompletes
    · exact .inr (.inl ⟨hr, stop, .handler hdecode hstop, ht⟩)
    · exact .inr (.inr ⟨hr, hfit, _, hdecode, hcompletes⟩)

/-- A step from a running to a stopped state took a stop. -/
theorem step_stops {s t : State} (hr : s.stopped = false) (h : step s = .next t) (ht : t.stopped = true) :
    ∃ stop, StepStop s stop ∧ t = s.raise stop := by
  rcases step_cases h with ⟨hs, _⟩ | ⟨_, hstop⟩ | ⟨_, _, i, _, hcompletes⟩
  · exact absurd (hr.symm.trans hs) (by decide)
  · exact hstop
  · exact absurd (hr.symm.trans (hcompletes.stopped_eq.symm.trans ht)) (by decide)

theorem step_cfg {s t : State} (h : step s = .next t) : t.cfg = s.cfg := by
  rcases step_cases h with ⟨_, rfl⟩ | ⟨_, _, _, rfl⟩ | ⟨_, _, _, _, hcompletes⟩
  · rfl
  · rfl
  · exact hcompletes.cfg_eq

end Sys2Proof.Machine

/-! ## The invariant (R29, R32, R35, R216) -/

namespace Sys2Proof.Machine

/-- A machine that raised a stop of its step holds a record of R216. -/
theorem StepStop.stopRecordOk_raise {s : State} {stop : Stop} (h : StepStop s stop) :
    (s.raise stop).stopRecordOk := by
  unfold State.stopRecordOk
  cases h with
  | pcOutOfRange hpc => exact .inr (.inl ⟨rfl, rfl, hpc⟩)
  | fetch hlt hge => exact .inr (.inr (.inr (.inl ⟨rfl, rfl, hlt, hge⟩)))
  | unknownOpcode hnone => exact .inr (.inr (.inl ⟨rfl, rfl, hnone⟩))
  | handler _ hstop =>
    cases hstop with
    | halt => exact .inl ⟨rfl, rfl⟩
    | @reg _ k _ hk => exact .inr (.inr (.inr (.inr (.inl ⟨rfl, rfl, hk, Nat.le_of_lt_succ k.isLt⟩))))
    | @mem _ d _ hd => exact .inr (.inr (.inr (.inr (.inr ⟨rfl, rfl, hd, Nat.le_of_lt_succ d.isLt⟩))))

/-- A stop of its step keeps the invariant: only the record is written. -/
theorem State.Inv.raise {s : State} (hi : s.Inv) {stop : Stop} (h : StepStop s stop) : (s.raise stop).Inv :=
  ⟨hi.legal, hi.pcRange, hi.flags, hi.memory, hi.bounds, fun _ => h.stopRecordOk_raise⟩

theorem write_bounds {m : Memory} {n addr : Nat} (v : Byte) (hm : ∀ c ∈ m, c.1 < n) (ha : addr < n) :
    ∀ c ∈ Memory.write m addr v, c.1 < n := by
  intro c hc
  rcases Memory.mem_write hc with rfl | hc
  · exact ha
  · exact hm c hc

/-- A completed instruction of a running machine keeps the invariant. The program counter stays within 256 because the
instruction's three cells are in memory (R29). -/
theorem State.Inv.completes {s t : State} {i : Instr} (hi : s.Inv) (hr : s.stopped = false)
    (hfit : s.pc + 2 < s.cfg.memSize) (h : Completes s i t) : t.Inv where
  legal := by rw [h.cfg_eq]; exact hi.legal
  pcRange := by
    obtain ⟨_, hsize⟩ := Config.legal_memSize hi.legal
    rcases h.pc_cases with ⟨_, hpc⟩ | ⟨_, hpc | ⟨v, hpc⟩⟩
    · rw [OpcodeMap.nops_value (Config.legal_map hi.legal)] at hpc
      have hcount := i.mnemonic.operandCount_le_two
      omega
    · omega
    · have hv := v.isLt
      omega
  flags := by
    rcases h.fl_cases with hfl | ⟨_, e, hfl⟩
    · rw [hfl]; exact hi.flags
    · rw [hfl, s.fl_setFlagE_of_live e hi.flags]
      cases e
      · exact .inl rfl
      · exact .inr rfl
  memory := by
    rcases h.mem_cases with hmem | ⟨_, d, v, _, _, hmem⟩
    · rw [hmem]; exact hi.memory
    · rw [hmem]; exact Memory.write_wf d.toNat v hi.memory
  bounds := by
    rw [h.cfg_eq]
    rcases h.mem_cases with hmem | ⟨_, d, v, _, hd, hmem⟩
    · rw [hmem]; exact hi.bounds
    · rw [hmem]; exact write_bounds v hi.bounds hd
  record := fun hs => absurd (hr.symm.trans (h.stopped_eq.symm.trans hs)) (by decide)

/-- Settles O36 along the three things a step can do. -/
theorem invariantIsKeptByEveryStep : Obligations.InvariantIsKeptByEveryStep := by
  intro s t hi h
  rcases step_cases h with ⟨_, rfl⟩ | ⟨_, stop, hstop, rfl⟩ | ⟨hr, hfit, _, _, hcompletes⟩
  · exact hi
  · exact hi.raise hstop
  · exact hi.completes hr hfit hcompletes

/-- The reset state of a legal configuration meets the invariant: it has no listed cell, and it runs. -/
theorem State.resetIn_inv {c : Config} (hl : c.legal = true) : (State.resetIn c).Inv where
  legal := hl
  pcRange := Nat.zero_le _
  flags := .inl rfl
  memory := State.resetIn_wf c
  bounds := fun _ hc => absurd hc List.not_mem_nil
  record := fun hs => absurd hs (by simp [State.resetIn])

/-- Settles O37: `FULL` is a legal configuration. -/
theorem invariantHoldsAtReset : Obligations.InvariantHoldsAtReset :=
  ⟨fun _ hl => State.resetIn_inv hl, State.resetIn_inv (by decide)⟩

end Sys2Proof.Machine

/-! ## Runs -/

namespace Sys2Proof.Machine

/-- A predicate that every step keeps holds at the end of every run: the one induction over the number of steps. -/
theorem run_keeps {P : State → Prop} (hstep : ∀ {s t : State}, P s → step s = .next t → P t) {n : Nat}
    {s t : State} (hs : P s) (h : core.run n s = .next t) : P t := by
  induction n generalizing s with
  | zero =>
    obtain rfl : s = t := Host.Outcome.next.inj h
    exact hs
  | succ n ih =>
    cases hfirst : step s with
    | next u =>
      have hrest : core.run (n + 1) s = core.run n u := by
        simp only [Host.Core.run, show core.step s = .next u from hfirst]
      exact ih (hstep hs hfirst) (hrest ▸ h)
    | fault r => simp [Host.Core.run, show core.step s = .fault r from hfirst] at h
    | refused r => simp [Host.Core.run, show core.step s = .refused r from hfirst] at h

/-- A state that is its own next state is so after any number of steps. -/
theorem run_of_step_self {s : State} (h : step s = .next s) (n : Nat) : core.run n s = .next s := by
  induction n with
  | zero => rfl
  | succ n ih => simpa only [Host.Core.run, show core.step s = .next s from h] using ih

/-- Settles O35: no step changes the configuration, so no run does. -/
theorem configurationNeverChanges : Obligations.ConfigurationNeverChanges := fun s _ _ h =>
  run_keeps (P := fun u => u.cfg = s.cfg) (fun hu hstep => (step_cfg hstep).trans hu) rfl h

/-- Settles O31: a stopped machine is its own next state. -/
theorem stoppedMachineIsFrozen : Obligations.StoppedMachineIsFrozen := fun _ n hl hs =>
  run_of_step_self (step_of_stopped hl hs) n

end Sys2Proof.Machine

/-! ## Rules of the whole machine: who writes what, and why a step stops -/

namespace Sys2Proof.Machine

section Writers

variable {s t : State} {i : Instr}

theorem exec_cfg (h : exec i s = .next t) : t.cfg = s.cfg := by
  rcases exec_next h with ⟨_, _, rfl⟩ | hcompletes
  · rfl
  · exact hcompletes.cfg_eq

theorem exec_fl_eq (h : exec i s = .next t) (hi : i.mnemonic ≠ .cmp) : t.fl = s.fl := by
  rcases exec_next h with ⟨_, _, rfl⟩ | hcompletes
  · rfl
  · rcases hcompletes.fl_cases with hfl | ⟨hcmp, _⟩
    · exact hfl
    · exact absurd hcmp hi

theorem exec_out_eq (h : exec i s = .next t) (hprn : i.mnemonic ≠ .prn) (hpra : i.mnemonic ≠ .pra) :
    t.out = s.out := by
  rcases exec_next h with ⟨_, _, rfl⟩ | hcompletes
  · rfl
  · rcases hcompletes.out_cases with hout | ⟨a, ⟨rfl, _⟩ | ⟨rfl, _⟩⟩
    · exact hout
    · exact absurd rfl hprn
    · exact absurd rfl hpra

/-- A cell that an instruction changes is the one at its data address, and only ST, PUSH and CALL change one. -/
theorem exec_memRead_changed {addr : Nat} (h : exec i s = .next t) (hne : t.memRead addr ≠ s.memRead addr) :
    (i.mnemonic = .st ∨ i.mnemonic = .push ∨ i.mnemonic = .call) ∧
      (dataAddress i s).map BitVec.toNat = some addr := by
  rcases exec_next h with ⟨_, _, rfl⟩ | hcompletes
  · exact absurd rfl hne
  · rcases hcompletes.mem_cases with hmem | ⟨hwriter, d, v, hd, _, hmem⟩
    · exact absurd (congrArg (Memory.read · addr) hmem) hne
    · have haddr : d.toNat = addr := by
        by_contra hother
        refine hne ?_
        rw [State.memRead, hmem, Memory.read_write_ne s.mem v hother]
        rfl
      exact ⟨hwriter, by rw [hd, Option.map_some, haddr]⟩

theorem exec_memRead_eq {addr : Nat} (h : exec i s = .next t)
    (hne : (dataAddress i s).map BitVec.toNat ≠ some addr) : t.memRead addr = s.memRead addr :=
  by_contra fun hchanged => hne (exec_memRead_changed h hchanged).2

theorem exec_memKept (h : exec i s = .next t) (hst : i.mnemonic ≠ .st) (hpush : i.mnemonic ≠ .push)
    (hcall : i.mnemonic ≠ .call) : memKept s t := by
  intro addr
  by_contra hchanged
  obtain ⟨hi | hi | hi, _⟩ := exec_memRead_changed h hchanged
  · exact hst hi
  · exact hpush hi
  · exact hcall hi

/-- With the data address known, every other cell is kept. -/
theorem exec_memKeptBut {d : Byte} (h : exec i s = .next t) (hd : dataAddress i s = some d) : memKeptBut d s t :=
  fun addr hne => exec_memRead_eq h (by rw [hd]; exact fun heq => hne (Option.some.inj heq).symm)

end Writers

/-- The numbers of the registers an instruction may write (R21, R22). -/
def writtenRegs : Instr → List Nat
  | .ldi a _ | .add a _ | .mul a _ => [a.toNat]
  | .push _ | .call _ | .ret => [7]
  | .pop a => [a.toNat, 7]
  | .hlt | .prn _ | .pra _ | .cmp _ _ | .jmp _ | .jeq _ | .jne _ | .st _ _ => []

theorem regsKeptBut_setReg {ds : List Nat} {r : Reg} (hr : r.val ∈ ds) (s : State) (v : Byte) :
    regsKeptBut ds s (s.setReg r v) :=
  fun _ hq => s.setReg_reg_ne v fun heq => hq (heq ▸ hr)

theorem regsKeptBut_trans {ds : List Nat} {s t u : State} (hst : regsKeptBut ds s t) (htu : regsKeptBut ds t u) :
    regsKeptBut ds s u :=
  fun r hr => (htu r hr).trans (hst r hr)

theorem Completes.regsKept {s t : State} {i : Instr} (h : Completes s i t) : regsKeptBut (writtenRegs i) s t := by
  cases h with
  | ldi ha | add ha | mul ha => exact regsKeptBut_setReg (r := ⟨_, ha⟩) (.head _) s _
  | push | call | ret => exact regsKeptBut_setReg (r := sp) (.head _) s _
  | pop ha =>
    refine regsKeptBut_trans (t := s.setReg ⟨_, ha⟩ _) ?_ (regsKeptBut_setReg (r := sp) (.tail _ (.head _)) _ _)
    exact regsKeptBut_setReg (r := ⟨_, ha⟩) (.head _) s _
  | prn | pra | cmp | jmp | jeq | jne | st => exact fun _ _ => rfl

theorem exec_regsKept {s t : State} {i : Instr} (h : exec i s = .next t) : regsKeptBut (writtenRegs i) s t := by
  rcases exec_next h with ⟨_, _, rfl⟩ | hcompletes
  · exact fun _ _ => rfl
  · exact hcompletes.regsKept

/-- Settles O45: neither a stop nor the completion of an instruction other than CMP writes the flags. -/
theorem onlyCmpWritesTheFlags : Obligations.OnlyCmpWritesTheFlags := fun _ _ _ hi h => exec_fl_eq h hi

/-- Settles O49: a stop writes no cell, and a completed instruction at most the one at its data address. -/
theorem memoryChangesOnlyAtTheDataAddress : Obligations.MemoryChangesOnlyAtTheDataAddress :=
  fun _ _ _ _ h hne => exec_memRead_changed h hne

/-- Settles O50: a register that changes is one the instruction may write, and these are its first operand or R7. -/
theorem registersHaveTheirWriters : Obligations.RegistersHaveTheirWriters := by
  intro i s t r h hne
  have hwritten : r.val ∈ writtenRegs i := by_contra fun hr => hne (exec_regsKept h r hr)
  cases i with
  | ldi | add | mul =>
    have hr := List.mem_singleton.mp hwritten
    exact .inl ⟨by simp [Instr.mnemonic], by simp [Instr.operands, hr]⟩
  | push | call | ret =>
    have hr := List.mem_singleton.mp hwritten
    exact .inr ⟨by simp [Instr.mnemonic], Fin.ext hr⟩
  | pop =>
    rcases List.mem_pair.mp hwritten with hr | hr
    · exact .inl ⟨by simp [Instr.mnemonic], by simp [Instr.operands, hr]⟩
    · exact .inr ⟨by simp [Instr.mnemonic], Fin.ext hr⟩
  | hlt | prn | pra | cmp | jmp | jeq | jne | st => exact absurd hwritten List.not_mem_nil

/-- Settles O48: neither an idle step nor a stop emits, and of the instructions only a completed PRN or PRA does. -/
theorem onlyPrintsEmit : Obligations.OnlyPrintsEmit := by
  intro s t h
  rcases step_cases h with ⟨_, rfl⟩ | ⟨_, _, _, rfl⟩ | ⟨hr, _, i, hdecode, hcompletes⟩
  · exact .inl rfl
  · exact .inl rfl
  · have ht : t.stopped = false := hcompletes.stopped_eq.trans hr
    rcases hcompletes.out_cases with hout | ⟨a, ⟨rfl, hout⟩ | ⟨rfl, hout⟩⟩
    · exact .inl hout
    · exact .inr ⟨a, ht, .inl ⟨hdecode, hout⟩⟩
    · exact .inr ⟨a, ht, .inr ⟨hdecode, hout⟩⟩

/-- Settles O51: a machine that still runs has completed the instruction. -/
theorem autoAdvanceOutsidePcSet : Obligations.AutoAdvanceOutsidePcSet := by
  intro i s t _ hi h ht
  rcases exec_next h with ⟨_, _, rfl⟩ | hcompletes
  · exact absurd ht (by simp)
  · rcases hcompletes.pc_cases with ⟨_, hpc⟩ | ⟨hset, _⟩
    · rw [hpc, nops_eq_extractLsb']
    · exact absurd (i.mnemonic.pcSet_iff_mem.mp hset) hi

/-- Settles O42: each way a step can stop has its own cause and its own condition. -/
theorem stopCausesHaveTheirSources : Obligations.StopCausesHaveTheirSources := by
  intro s t hr h ht
  obtain ⟨stop, hstop, rfl⟩ := step_stops hr h ht
  cases hstop with
  | pcOutOfRange hpc => exact .inl ⟨rfl, rfl, hpc⟩
  | fetch hlt hge => exact .inr (.inl ⟨rfl, rfl, by omega⟩)
  | unknownOpcode hnone => exact .inr (.inr (.inl ⟨rfl, hnone⟩))
  | @handler i _ hdecode hstop =>
    refine .inr (.inr (.inr ⟨i, hdecode, ?_⟩))
    cases hstop with
    | halt => exact .inr (.inr ⟨rfl, rfl, rfl⟩)
    | reg hk hge => exact .inl ⟨rfl, _, hk, hge, rfl⟩
    | mem hd hge => exact .inr (.inl ⟨rfl, _, hd, hge, rfl⟩)

theorem StepStop.cause_ne_unsupportedALUOperation {s : State} {stop : Stop} (h : StepStop s stop) :
    stop.cause ≠ .unsupportedALUOperation := by
  cases h with
  | pcOutOfRange | fetch | unknownOpcode => exact Cause.noConfusion
  | handler _ hstop => cases hstop <;> exact Cause.noConfusion

/-- Settles O43: the ALU's own answer is its definition, and no stop of a step has that cause. -/
theorem unsupportedAluOperationIsUnreachable : Obligations.UnsupportedAluOperationIsUnreachable := by
  refine ⟨fun _ _ _ => rfl, fun s t hs h => ?_⟩
  rcases step_cases h with ⟨_, rfl⟩ | ⟨_, stop, hstop, rfl⟩ | ⟨_, _, _, _, hcompletes⟩
  · exact hs
  · exact hstop.cause_ne_unsupportedALUOperation
  · rwa [hcompletes.cause_eq]

/-- A stop of kind MEM comes of a cell value at or above MEMSIZE (R54). -/
theorem StepStop.memSize_lt_of_mem {s : State} {stop : Stop} (h : StepStop s stop) (hmem : stop.info.kind = .mem) :
    s.cfg.memSize < 256 := by
  cases h with
  | pcOutOfRange | fetch | unknownOpcode => exact InfoKind.noConfusion hmem
  | handler _ hstop =>
    cases hstop with
    | halt | reg => exact InfoKind.noConfusion hmem
    | @mem _ d _ hge => exact Nat.lt_of_le_of_lt hge d.isLt

/-- Settles O44: an 8-bit data address is below 256, so no stop of kind MEM can be taken. -/
theorem fullMemoryHasNoDataAddressStop : Obligations.FullMemoryHasNoDataAddressStop := by
  intro s t hsize hr h ht hmem
  obtain ⟨stop, hstop, rfl⟩ := step_stops hr h ht
  exact (hstop.memSize_lt_of_mem hmem).ne hsize

end Sys2Proof.Machine

/-! ## Frames: the rules of the whole machine at each instruction -/

namespace Sys2Proof.Machine

/-- The frame of every instruction that writes no flag and no memory and emits nothing. -/
theorem exec_frame {i : Instr} {s t : State} (hi : i.mnemonic ∉ [Mnemonic.cmp, .prn, .pra, .st, .push, .call])
    (h : exec i s = .next t) :
    regsKeptBut (writtenRegs i) s t ∧ t.fl = s.fl ∧ memKept s t ∧ t.out = s.out ∧ t.cfg = s.cfg ∧
      recordKeptOrRaised s t := by
  simp only [List.mem_cons, List.not_mem_nil, or_false, not_or] at hi
  obtain ⟨hcmp, hprn, hpra, hst, hpush, hcall⟩ := hi
  exact ⟨exec_regsKept h, exec_fl_eq h hcmp, exec_memKept h hst hpush hcall, exec_out_eq h hprn hpra, exec_cfg h,
    exec_recordKeptOrRaised h⟩

/-- Settles O22: the frame of an instruction that touches neither flags, memory nor output, at each of the three. -/
theorem frameOfLdiAddMul : Obligations.FrameOfLdiAddMul := by
  rintro s t a b (h | h | h)
  · exact exec_frame (i := .ldi a b) (by simp [Instr.mnemonic]) h
  · exact exec_frame (i := .add a b) (by simp [Instr.mnemonic]) h
  · exact exec_frame (i := .mul a b) (by simp [Instr.mnemonic]) h

/-- Settles O27: that frame at POP and at RET. -/
theorem frameOfPopRet : Obligations.FrameOfPopRet :=
  ⟨fun _ _ a h => exec_frame (i := .pop a) (by simp [Instr.mnemonic]) h,
    fun _ _ h => exec_frame (i := .ret) (by simp [Instr.mnemonic]) h⟩

/-- Settles O28: that frame at the three jumps, which write no register. -/
theorem frameOfJumps : Obligations.FrameOfJumps := by
  rintro s t a (h | h | h)
  · exact exec_frame (i := .jmp a) (by simp [Instr.mnemonic]) h
  · exact exec_frame (i := .jeq a) (by simp [Instr.mnemonic]) h
  · exact exec_frame (i := .jne a) (by simp [Instr.mnemonic]) h

/-- Settles O23: they write no register, no flag and no memory; only their output is not kept. -/
theorem frameOfPrnPra : Obligations.FrameOfPrnPra := by
  rintro s t a (h | h) <;>
  exact ⟨exec_regsKept h, exec_fl_eq h nofun, exec_memKept h nofun nofun nofun, exec_cfg h, exec_recordKeptOrRaised h⟩

/-- A write of the equality bit keeps the other flag bits (R9). -/
theorem State.setFlagE_getLsbD (s : State) (e : Bool) {k : Nat} (hk : k ≠ 0) :
    (s.setFlagE e).fl.getLsbD k = s.fl.getLsbD k := by
  cases e with
  | true => simp [BitVec.getLsbD_one, hk]
  | false =>
    have hmask : (0xFE#8).getLsbD k = decide (k < 8) := by
      rw [show (0xFE#8 : Byte) = ~~~1#8 from rfl, BitVec.getLsbD_not, BitVec.getLsbD_one]
      simp [hk]
    simpa [hmask] using BitVec.lt_of_getLsbD

/-- Settles O24: CMP's completion is a write of the equality bit, and HLT is a stop. -/
theorem frameOfCmpHlt : Obligations.FrameOfCmpHlt := by
  refine ⟨fun s t a b h => ⟨exec_regsKept h, ?flags, exec_memKept h nofun nofun nofun, exec_out_eq h nofun nofun,
    exec_cfg h, exec_recordKeptOrRaised h⟩, fun s t h => ?hlt⟩
  case flags =>
    intro k hk
    rcases exec_next h with ⟨_, _, rfl⟩ | hcompletes
    · rfl
    · rcases hcompletes.fl_cases with hfl | ⟨_, e, hfl⟩
      · rw [hfl]
      · rw [hfl, s.setFlagE_getLsbD e hk]
  case hlt =>
    obtain rfl := execHlt_next h
    exact ⟨fun _ _ => rfl, rfl, fun _ => rfl, rfl, rfl, rfl, .inr ⟨_, rfl⟩⟩

/-- Settles O25: a first operand below 8 gives ST its data address; with another one it has none. -/
theorem frameOfSt : Obligations.FrameOfSt := by
  refine fun s t a b h => ⟨exec_regsKept h, exec_fl_eq h nofun, exec_out_eq h nofun nofun, exec_cfg h,
    exec_recordKeptOrRaised h, fun ha => exec_memKeptBut h (dif_pos ha), fun ha addr => exec_memRead_eq h ?noAddress⟩
  case noAddress => simp [dataAddress, ha.not_gt]

/-- Settles O26: the push address is the data address of both. -/
theorem frameOfPushCall : Obligations.FrameOfPushCall := by
  rintro s t a (h | h) <;>
  exact ⟨exec_regsKept h, exec_fl_eq h nofun, exec_out_eq h nofun nofun, exec_cfg h, exec_recordKeptOrRaised h,
    exec_memKeptBut h rfl⟩

end Sys2Proof.Machine

/-! ## The step of a running machine (R110 to R113) -/

namespace Sys2Proof.Machine

/-- Settles O29: the plan of such a machine is to run the decoded instruction. -/
theorem stepRunsDecodedInstruction : Obligations.StepRunsDecodedInstruction := by
  intro s i hl hr hfit hdecode
  have hplan : plan s = .run i := by
    have hcells : decodeCells s.cfg (s.memRead s.pc) (s.memRead (s.pc + 1)) (s.memRead (s.pc + 2)) = .ok i := hdecode
    rcases fetch_cases s with ⟨_, _⟩ | ⟨_, _, _⟩ | ⟨_, hfetch⟩
    · omega
    · omega
    · simp [plan, hl, hr, hfetch, hcells]
  exact step_of_run hplan

/-- Settles O30: where the program counter stands decides the case of the plan. -/
theorem stepStopsBeforeTheHandler : Obligations.StepStopsBeforeTheHandler := by
  refine fun s hl hr => ⟨fun hend => ?endOfMemory, step_of_last_two_cells hl hr, fun hfit hunknown => ?opcode⟩
  case endOfMemory =>
    rcases plan_cases hl hr with ⟨_, hplan⟩ | ⟨_, _, _⟩ | ⟨_, _, _⟩ | ⟨_, _, _, _⟩
    · exact step_of_stop hplan
    all_goals omega
  case opcode =>
    rcases plan_cases hl hr with ⟨_, _⟩ | ⟨_, _, _⟩ | ⟨_, _, hplan⟩ | ⟨m, _, hfound, _⟩
    · omega
    · omega
    · exact step_of_stop hplan
    · obtain ⟨hvalue, henabled⟩ := Config.lookup_some hfound
      exact absurd hvalue (hunknown m henabled)

/-! A handler answers a next state when its continuations do: the return address, the one check that can fault, fits
wherever an instruction runs (R29, log 7). -/

/-- The result is a next state. -/
def Answers (x : Result) : Prop := ∃ t, x = .next t

theorem answers_finish (m : Mnemonic) (s : State) : Answers (finish m s) := ⟨_, rfl⟩

theorem answers_requireReg {k : Byte} {s : State} {go : Reg → Result} (hgo : ∀ r, Answers (go r)) :
    Answers (requireReg k s go) := by
  rcases Nat.lt_or_ge k.toNat 8 with hk | hk
  · rw [requireReg_of_lt hk]
    exact hgo _
  · exact ⟨_, requireReg_of_ge hk s go⟩

theorem answers_requireMem {addr : Byte} {s : State} {go : Result} (hgo : Answers go) :
    Answers (requireMem addr s go) := by
  rcases Nat.lt_or_ge addr.toNat s.cfg.memSize with hm | hm
  · rwa [requireMem_of_lt hm]
  · exact ⟨_, requireMem_of_ge hm go⟩

theorem answers_requireReturnAddress {addr : Nat} (h : addr ≤ 255) {go : Byte → Result} (hgo : ∀ v, Answers (go v)) :
    Answers (requireReturnAddress addr go) := by
  rw [requireReturnAddress_of_le h]
  exact hgo _

theorem exec_answers (i : Instr) {s : State} (hpc : s.pc ≤ 253) : Answers (exec i s) := by
  cases i with
  | hlt => exact ⟨_, rfl⟩
  | ldi | prn | pra | jmp | jeq | jne =>
    simp only [exec, execLdi, execPrn, execPra, execJmp, execJeq, execJne, jumpIf]
    exact answers_requireReg fun _ => answers_finish _ _
  | add | mul | cmp =>
    simp only [exec, execAdd, execMul, execCmp, execAlu, aluApply]
    exact answers_requireReg fun _ => answers_requireReg fun _ => answers_finish _ _
  | push | pop =>
    simp only [exec, execPush, execPop]
    exact answers_requireReg fun _ => answers_requireMem (answers_finish _ _)
  | call =>
    have hret : s.pc + 2 ≤ 255 := by omega
    simp only [exec, execCall]
    exact answers_requireReg fun _ => answers_requireMem (answers_requireReturnAddress hret fun _ => answers_finish _ _)
  | ret =>
    simp only [exec, execRet]
    exact answers_requireMem (answers_finish _ _)
  | st =>
    simp only [exec, execSt]
    exact answers_requireReg fun _ => answers_requireReg fun _ => answers_requireMem (answers_finish _ _)

/-- Settles O33: an instruction runs only with its three cells in memory, of which there are at most 256. -/
theorem everyStepAnswersNext : Obligations.EveryStepAnswersNext := by
  intro s hl
  cases hs : s.stopped with
  | true => exact ⟨s, step_of_stopped hl hs⟩
  | false =>
    rcases plan_cases hl hs with ⟨_, hplan⟩ | ⟨_, _, hplan⟩ | ⟨_, _, hplan⟩ | ⟨m, hfit, _, hplan⟩
    · exact ⟨_, step_of_stop hplan⟩
    · exact ⟨_, step_of_stop hplan⟩
    · exact ⟨_, step_of_stop hplan⟩
    · obtain ⟨_, hsize⟩ := Config.legal_memSize hl
      rw [step_of_run hplan]
      exact exec_answers _ (by omega)

/-- Every register operand of a well-formed instruction names a register. -/
theorem wellFormed_iff {i : Instr} : WellFormed i = true ↔ ∀ k ∈ i.regOperands, k.toNat < 8 := by
  simp [WellFormed]

/-- Settles O40: each of the stops is excluded by one of the hypotheses, so the instruction completes. -/
theorem wellFormedInstructionsComplete : Obligations.WellFormedInstructionsComplete := by
  intro i s hwf hne hpc hdata
  obtain ⟨t, h⟩ := exec_answers i hpc
  rcases exec_next h with ⟨_, hstop, _⟩ | hcompletes
  · cases hstop with
    | halt => exact absurd rfl hne
    | reg hk hge => exact absurd (wellFormed_iff.mp hwf _ hk) hge.not_gt
    | mem hd hge => exact absurd (hdata _ hd) hge.not_gt
  · exact ⟨t, h, hcompletes.stopped_eq, hcompletes.cause_eq, hcompletes.info_eq⟩

/-- Settles O41: past the register checks, the check of the data address is the next thing each of the five does. -/
theorem dataAddressIsChecked : Obligations.DataAddressIsChecked := by
  intro i s d hwf hd hge
  have hreg := wellFormed_iff.mp hwf
  cases i with
  | st a b =>
    have ha : a.toNat < 8 := hreg a (.head _)
    have hb : b.toNat < 8 := hreg b (.tail _ (.head _))
    obtain rfl : s.reg ⟨a.toNat, ha⟩ = d := by simpa [dataAddress, ha] using hd
    rw [exec, execSt, requireReg_of_lt ha, requireReg_of_lt hb]
    exact requireMem_of_ge hge _
  | push a | pop a | call a =>
    obtain rfl := Option.some.inj hd
    simp only [exec, execPush, execPop, execCall, requireReg_of_lt (hreg a (.head _))]
    exact requireMem_of_ge hge _
  | ret =>
    obtain rfl := Option.some.inj hd
    exact requireMem_of_ge hge _
  | hlt | ldi | prn | pra | add | mul | cmp | jmp | jeq | jne => exact absurd hd (by simp [dataAddress])

theorem requireReturnAddress_of_gt {addr : Nat} (h : 255 < addr) (go : Byte → Result) :
    requireReturnAddress addr go = .fault (.returnAddressTooWide addr) :=
  if_neg h.not_ge

/-- Settles O21: past its register and address checks CALL checks the return address before any effect. -/
theorem callFaultsWhereReturnAddressDoesNotFit : Obligations.CallFaultsWhereReturnAddressDoesNotFit := by
  intro s a ha hm hpc
  rw [exec_call_of_lt ha, requireMem_of_lt (addr := s.pushAddr) hm, requireReturnAddress_of_gt (by omega)]

/-- Settles O34: `Config.legal` is the bounds of R6 and the two demands of R94 on the map. -/
theorem illegalConfigurationIsRefused : Obligations.IllegalConfigurationIsRefused := by
  refine ⟨fun s hl => ?step, fun b c hl => ?reset, fun c hsize => ?memSize, fun c m n hne hvalue => ?distinct,
    fun c m hnops => ?highBits⟩
  case step => rw [step, plan_of_illegal hl]
  case reset => simp [Block.apply, resetBlock, hl]
  all_goals refine Bool.eq_false_iff.mpr fun hl => ?_
  case memSize =>
    have hbounds := Config.legal_memSize hl
    omega
  case distinct => exact hne (OpcodeMap.value_injective (Config.legal_map hl) hvalue)
  case highBits => exact hnops (OpcodeMap.nops_value (Config.legal_map hl) m)

end Sys2Proof.Machine

/-! ## What the machine does not read: the flags but for the conditional jumps, and the output (R31, R36) -/

namespace Sys2Proof.Machine

/-- A relation between states that agree on all that instructions read, but for the equality bit, and that every update
keeps. -/
structure SameReads (R : State → State → Prop) : Prop where
  cfg {s s' : State} : R s s' → s'.cfg = s.cfg
  pc {s s' : State} : R s s' → s'.pc = s.pc
  reg {s s' : State} : R s s' → s'.reg = s.reg
  memRead {s s' : State} : R s s' → s'.memRead = s.memRead
  raise {s s' : State} (stop : Stop) : R s s' → R (s.raise stop) (s'.raise stop)
  setPc {s s' : State} (target : Nat) : R s s' → R (s.setPc target) (s'.setPc target)
  setReg {s s' : State} (r : Reg) (v : Byte) : R s s' → R (s.setReg r v) (s'.setReg r v)
  memWrite {s s' : State} (addr : Nat) (v : Byte) : R s s' → R (s.memWrite addr v) (s'.memWrite addr v)
  emit {s s' : State} (kind : EventKind) (v : Byte) : R s s' → R (s.emit kind v) (s'.emit kind v)
  setFlagE {s s' : State} (e : Bool) : R s s' → R (s.setFlagE e) (s'.setFlagE e)

/-- Where the first result is a next state, the second is a related one. -/
def Follows (R : State → State → Prop) (x y : Result) : Prop := ∀ t, x = .next t → ∃ t', y = .next t' ∧ R t t'

namespace SameReads

variable {R : State → State → Prop} {s s' : State}

theorem next (h : R s s') : Follows R (.next s) (.next s') := by
  intro t ht
  obtain rfl : s = t := Host.Outcome.next.inj ht
  exact ⟨s', rfl, h⟩

theorem decSp (hR : SameReads R) (h : R s s') : R s.decSp s'.decSp := by
  rw [State.decSp, State.decSp, hR.reg h]
  exact hR.setReg _ _ h

theorem incSp (hR : SameReads R) (h : R s s') : R s.incSp s'.incSp := by
  rw [State.incSp, State.incSp, hR.reg h]
  exact hR.setReg _ _ h

theorem finish (hR : SameReads R) (h : R s s') (m : Mnemonic) :
    Follows R (Machine.finish m s) (Machine.finish m s') := by
  refine next ?_
  split
  · exact h
  · rw [State.advance, State.advance, hR.cfg h, hR.pc h]
    exact hR.setPc _ h

theorem requireReg (hR : SameReads R) (h : R s s') (k : Byte) {go go' : Reg → Result}
    (hgo : ∀ r, Follows R (go r) (go' r)) : Follows R (Machine.requireReg k s go) (Machine.requireReg k s' go') := by
  rcases Nat.lt_or_ge k.toNat 8 with hk | hk
  · rw [requireReg_of_lt hk, requireReg_of_lt hk]
    exact hgo _
  · rw [requireReg_of_ge hk, requireReg_of_ge hk]
    exact next (hR.raise _ h)

theorem requireMem (hR : SameReads R) (h : R s s') (addr : Byte) {go go' : Result} (hgo : Follows R go go') :
    Follows R (Machine.requireMem addr s go) (Machine.requireMem addr s' go') := by
  rw [Machine.requireMem, Machine.requireMem, hR.cfg h]
  split
  · exact hgo
  · exact next (hR.raise _ h)

theorem requireReturnAddress (addr : Nat) {go go' : Byte → Result} (hgo : ∀ v, Follows R (go v) (go' v)) :
    Follows R (Machine.requireReturnAddress addr go) (Machine.requireReturnAddress addr go') := by
  unfold Machine.requireReturnAddress
  split
  · exact hgo _
  · exact fun _ ht => absurd ht (by simp)

theorem jumpIf (hR : SameReads R) (h : R s s') (m : Mnemonic) (taken : Bool) (a : Byte) :
    Follows R (Machine.jumpIf m taken a s) (Machine.jumpIf m taken a s') := by
  refine hR.requireReg h a fun r => ?_
  rw [hR.reg h, hR.pc h]
  exact hR.finish (hR.setPc _ h) m

/-- An instruction does the same from related states; a conditional jump does where the equality bits agree. -/
theorem exec (hR : SameReads R) (h : R s s') {i : Instr}
    (hfl : i.mnemonic = .jeq ∨ i.mnemonic = .jne → s'.flagE = s.flagE) :
    Follows R (Machine.exec i s) (Machine.exec i s') := by
  have hreg := hR.reg h
  have hdec := hR.decSp h
  have hpush : s'.pushAddr = s.pushAddr := by rw [State.pushAddr, State.pushAddr, hreg]
  have hpop : s'.popAddr = s.popAddr := by rw [State.popAddr, State.popAddr, hreg]
  cases i with
  | hlt =>
    simp only [Machine.exec, execHlt, hR.pc h]
    exact next (hR.raise _ h)
  | ldi a b => exact hR.requireReg h a fun r => hR.finish (hR.setReg r b h) .ldi
  | prn a | pra a =>
    simp only [Machine.exec, execPrn, execPra, hreg]
    exact hR.requireReg h a fun r => hR.finish (hR.emit _ _ h) _
  | add a b | mul a b =>
    simp only [Machine.exec, execAdd, execMul, execAlu, aluApply, hreg]
    exact hR.requireReg h a fun _ => hR.requireReg h b fun _ => hR.finish (hR.setReg _ _ h) _
  | cmp a b =>
    simp only [Machine.exec, execCmp, execAlu, aluApply, hreg]
    exact hR.requireReg h a fun _ => hR.requireReg h b fun _ => hR.finish (hR.setFlagE _ h) _
  | push a =>
    simp only [Machine.exec, execPush, hpush, hR.reg hdec]
    exact hR.requireReg h a fun _ => hR.requireMem h _ (hR.finish (hR.memWrite _ _ hdec) _)
  | pop a =>
    simp only [Machine.exec, execPop, hpop, hR.memRead h]
    exact hR.requireReg h a fun r => hR.requireMem h _ (hR.finish (hR.incSp (hR.setReg r _ h)) _)
  | call a =>
    simp only [Machine.exec, execCall, hpush, hR.reg hdec, hR.pc h]
    refine hR.requireReg h a fun r => hR.requireMem h _ (SameReads.requireReturnAddress _ fun ret => ?_)
    have hstored := hR.memWrite (s.decSp.reg sp).toNat ret hdec
    rw [hR.reg hstored]
    exact hR.finish (hR.setPc _ hstored) _
  | ret =>
    simp only [Machine.exec, execRet, hpop, hR.memRead h]
    exact hR.requireMem h _ (hR.finish (hR.incSp (hR.setPc _ h)) _)
  | jmp a =>
    simp only [Machine.exec, execJmp, hreg]
    exact hR.requireReg h a fun r => hR.finish (hR.setPc _ h) _
  | jeq a =>
    simp only [Machine.exec, execJeq, hfl (.inl rfl)]
    exact hR.jumpIf h _ _ a
  | jne a =>
    simp only [Machine.exec, execJne, hfl (.inr rfl)]
    exact hR.jumpIf h _ _ a
  | st a b =>
    simp only [Machine.exec, execSt, hreg]
    exact hR.requireReg h a fun _ => hR.requireReg h b fun _ => hR.requireMem h _ (hR.finish (hR.memWrite _ _ h) _)

end SameReads

/-- The states differ at most in the flags. -/
def DifferInFlags (s s' : State) : Prop := ∃ f, s' = { s with fl := f }

theorem DifferInFlags.sameReads : SameReads DifferInFlags where
  cfg := by rintro s _ ⟨f, rfl⟩; rfl
  pc := by rintro s _ ⟨f, rfl⟩; rfl
  reg := by rintro s _ ⟨f, rfl⟩; rfl
  memRead := by rintro s _ ⟨f, rfl⟩; rfl
  raise stop := by rintro ⟨f, rfl⟩; exact ⟨_, rfl⟩
  setPc target := by rintro ⟨f, rfl⟩; exact ⟨_, rfl⟩
  setReg r v := by rintro ⟨f, rfl⟩; exact ⟨_, rfl⟩
  memWrite addr v := by rintro ⟨f, rfl⟩; exact ⟨_, rfl⟩
  emit kind v := by rintro ⟨f, rfl⟩; exact ⟨_, rfl⟩
  setFlagE e := by rintro ⟨f, rfl⟩; exact ⟨_, rfl⟩

/-- Settles O46: instructions other than the two jumps do the same from states that differ in the flags. -/
theorem onlyConditionalJumpsReadTheFlags : Obligations.OnlyConditionalJumpsReadTheFlags := by
  intro i s t f hjeq hjne h
  have hfl : i.mnemonic = .jeq ∨ i.mnemonic = .jne → ({ s with fl := f } : State).flagE = s.flagE :=
    fun hjump => absurd hjump (not_or.mpr ⟨hjeq, hjne⟩)
  obtain ⟨_, hexec, f', rfl⟩ := DifferInFlags.sameReads.exec ⟨f, rfl⟩ hfl t h
  exact ⟨f', hexec⟩

/-- The state with these events before its output. -/
def State.withEarlier (earlier : List Event) (s : State) : State := { s with out := earlier ++ s.out }

theorem State.withEarlier_sameReads (earlier : List Event) :
    SameReads fun s s' => s' = s.withEarlier earlier where
  cfg := by rintro s _ rfl; rfl
  pc := by rintro s _ rfl; rfl
  reg := by rintro s _ rfl; rfl
  memRead := by rintro s _ rfl; rfl
  raise stop := by rintro rfl; rfl
  setPc target := by rintro rfl; rfl
  setReg r v := by rintro rfl; rfl
  memWrite addr v := by rintro rfl; rfl
  emit kind v := by rintro rfl; simp [State.withEarlier, State.emit]
  setFlagE e := by rintro rfl; rfl

theorem plan_withEarlier (earlier : List Event) (s : State) : plan (s.withEarlier earlier) = plan s := rfl

/-- Settles O47: the plan does not look at the output, and no instruction reads it. -/
theorem outputIsNeverRead : Obligations.OutputIsNeverRead := by
  intro s t earlier h
  have hR := State.withEarlier_sameReads earlier
  change step (s.withEarlier earlier) = .next (t.withEarlier earlier)
  have hfollows : Follows (fun u u' => u' = u.withEarlier earlier) (step s) (step (s.withEarlier earlier)) := by
    rw [step, step, plan_withEarlier]
    cases plan s with
    | refuse reason => exact fun _ hrefused => absurd hrefused (by simp)
    | idle => exact SameReads.next rfl
    | stop stop => exact SameReads.next (hR.raise stop rfl)
    | run i => exact hR.exec rfl fun _ => rfl
  obtain ⟨_, hstep, rfl⟩ := hfollows t h
  exact hstep

end Sys2Proof.Machine

/-! ## The boundary: reset and the load port (R39, R196, R198, R247) -/

namespace Sys2Proof.Machine

section LoadFrom

variable (s : State) (addr : Nat) (img : List Nat)

/-- Writing an image changes nothing but memory. -/
theorem State.loadFrom_eq : s.loadFrom addr img = { s with mem := (s.loadFrom addr img).mem } := by
  induction img generalizing s addr with
  | nil => rfl
  | cons v rest ih => exact ih (s.memWrite addr (BitVec.ofNat 8 v)) (addr + 1)

/-- The cells below and above an image are left alone. -/
theorem State.loadFrom_memRead_outside {k : Nat} (hk : k < addr ∨ addr + img.length ≤ k) :
    (s.loadFrom addr img).memRead k = s.memRead k := by
  induction img generalizing s addr with
  | nil => rfl
  | cons v rest ih =>
    rw [List.length_cons] at hk
    calc ((s.memWrite addr (BitVec.ofNat 8 v)).loadFrom (addr + 1) rest).memRead k
        = (s.memWrite addr (BitVec.ofNat 8 v)).memRead k := ih _ _ (by omega)
      _ = s.memRead k := s.memWrite_memRead_ne _ (by omega)

/-- Each cell of an image reads as its value. -/
theorem State.loadFrom_memRead_inside {j : Nat} (hj : j < img.length) :
    (s.loadFrom addr img).memRead (addr + j) = BitVec.ofNat 8 img[j] := by
  induction img generalizing s addr j with
  | nil => exact absurd hj (Nat.not_lt_zero j)
  | cons v rest ih =>
    have hfirst := (s.memWrite addr (BitVec.ofNat 8 v)).loadFrom_memRead_outside (addr + 1) rest (k := addr) (by omega)
    cases j with
    | zero => exact hfirst.trans (s.memWrite_memRead_self addr _)
    | succ j =>
      rw [show addr + (j + 1) = addr + 1 + j by omega]
      exact ih _ _ (by simpa using hj)

end LoadFrom

/-- A write within memory to a running machine keeps the invariant. -/
theorem State.Inv.memWrite {s : State} (hi : s.Inv) (hr : s.stopped = false) {addr : Nat} (ha : addr < s.cfg.memSize)
    (v : Byte) : (s.memWrite addr v).Inv where
  legal := hi.legal
  pcRange := hi.pcRange
  flags := hi.flags
  memory := s.memWrite_wf addr v hi.memory
  bounds := write_bounds v hi.bounds ha
  record := fun hs => absurd (hr.symm.trans hs) (by decide)

/-- Loading an image that fits into a running machine keeps the invariant. -/
theorem State.Inv.loadFrom {s : State} (hi : s.Inv) (hr : s.stopped = false) {addr : Nat} {img : List Nat}
    (hfit : addr + img.length ≤ s.cfg.memSize) : (s.loadFrom addr img).Inv := by
  induction img generalizing s addr with
  | nil => exact hi
  | cons v rest ih =>
    rw [List.length_cons] at hfit
    refine ih (hi.memWrite hr (by omega) _) hr ?_
    rw [s.memWrite_cfg]
    omega

theorem resetBlock_next {c : Config} {b : Block} (h : resetBlock c = .next b) :
    c.legal = true ∧ b = ⟨State.resetIn c, true⟩ := by
  unfold resetBlock at h
  split at h
  case isTrue hl => exact ⟨hl, (Host.Outcome.next.inj h).symm⟩
  case isFalse => exact absurd h (by simp)

theorem loadBlock_next {b b' : Block} {img : List Nat} (h : loadBlock b img = .next b') :
    img.length ≤ b.core.cfg.memSize ∧ b' = { b with core := b.core.loadFrom 0 img } := by
  unfold loadBlock at h
  split at h
  · exact absurd h (by simp)
  · split at h
    case isTrue hfit => exact ⟨hfit.1, (Host.Outcome.next.inj h).symm⟩
    case isFalse => exact absurd h (by simp)

/-- Settles O38: the invariant holds at reset, an image that fits keeps it, and so does every step (O36). -/
theorem invariantHoldsAlongEveryRun : Obligations.InvariantHoldsAlongEveryRun := by
  intro c img b b' n t hreset hload hrun
  obtain ⟨hl, rfl⟩ := resetBlock_next hreset
  obtain ⟨hfit, rfl⟩ := loadBlock_next hload
  have hloaded : ((State.resetIn c).loadFrom 0 img).Inv :=
    (State.resetIn_inv hl).loadFrom rfl (by rw [Nat.zero_add]; exact hfit)
  exact run_keeps (P := State.Inv) (fun hi hstep => invariantIsKeptByEveryStep _ _ hi hstep) hloaded hrun

/-- A value of at most 255 is the value of the cell it is stored in. -/
theorem toNat_ofNat_of_le {v : Nat} (hv : v ≤ 255) : (BitVec.ofNat 8 v).toNat = v := by
  rw [BitVec.toNat_ofNat, Nat.mod_eq_of_lt (by omega)]

/-- Settles O59: the image's cells are its values, the cells beyond it those of the reset state. -/
theorem imageStandsFromAddressZero : Obligations.ImageStandsFromAddressZero := by
  intro c img b hreset
  obtain ⟨_, rfl⟩ := resetBlock_next hreset
  refine ⟨fun hfit => ⟨_, if_pos hfit, fun k hk => ?value, fun k hk => ?beyond, ?memoryOnly⟩, fun hbad => ?refused⟩
  case value =>
    have hcell := (State.resetIn c).loadFrom_memRead_inside 0 img hk
    rw [Nat.zero_add] at hcell
    exact (congrArg BitVec.toNat hcell).trans (toNat_ofNat_of_le (hfit.2 _ (List.getElem_mem hk)))
  case beyond => exact (State.resetIn c).loadFrom_memRead_outside 0 img (.inr (by rwa [Nat.zero_add]))
  case memoryOnly => exact (State.resetIn c).loadFrom_eq 0 img
  case refused =>
    refine if_neg fun hfit => ?_
    rcases hbad with hlong | ⟨v, hv, hlarge⟩
    · exact hlong.not_ge hfit.1
    · exact hlarge.not_ge (hfit.2 v hv)

/-- A step leaves the load port closed. -/
theorem stepBlock_next {b b' : Block} (h : stepBlock b = .next b') : b'.loadOpen = false := by
  unfold stepBlock at h
  split at h
  · obtain rfl := Host.Outcome.next.inj h
    rfl
  · exact absurd h (by simp)
  · exact absurd h (by simp)

/-- Settles O60: an open port is one write where the bounds hold, and the port is closed after a step. -/
theorem loadPortOpensUntilTheFirstStep : Obligations.LoadPortOpensUntilTheFirstStep := by
  refine fun b addr v => ⟨fun hopen ha hv => ?inBounds, fun hopen hbad => ?outOfBounds, fun b' img h => ?closed⟩
  case inBounds =>
    refine ⟨{ b with core := b.core.memWrite addr (BitVec.ofNat 8 v) }, ?accepted, hopen, ?cell,
      fun other hne => b.core.memWrite_memRead_ne _ hne, rfl⟩
    case accepted => simp [Block.apply, loadCell, hopen, ha, hv]
    case cell => exact (congrArg BitVec.toNat (b.core.memWrite_memRead_self addr _)).trans (toNat_ofNat_of_le hv)
  case outOfBounds =>
    have hbounds : ¬(addr < b.core.cfg.memSize ∧ v ≤ 255) := by omega
    simp [Block.apply, loadCell, hopen, hbounds]
  case closed =>
    have hclosed := stepBlock_next h
    exact ⟨by simp [Block.apply, loadCell, hclosed], by simp [Block.apply, loadBlock, hclosed]⟩

/-- Settles O58: the registers below R7 are the leading cells of the reset vector, and reset is one assignment. -/
theorem resetValues : Obligations.ResetValues := by
  refine ⟨fun c => ⟨rfl, fun r hr => ?lowRegisters, rfl, rfl, rfl, fun _ => rfl, rfl, rfl⟩, rfl, rfl, rfl,
    fun b c hl => ⟨⟨State.resetIn c, true⟩, if_pos hl, rfl, rfl⟩⟩
  case lowRegisters =>
    fin_cases r
    on_goal 8 => exact absurd rfl hr
    all_goals rfl

end Sys2Proof.Machine

/-! ## Laws over several instructions (R64, R118, R168, R181, R182) -/

namespace Sys2Proof.Machine

/-- Settles O57: the jump writes the program counter it found, so the state is its own next state. -/
theorem selfJumpNeverEnds : Obligations.SelfJumpNeverEnds := by
  intro s a ha n hl hr hfit hdecode hself
  have hstep : step s = .next s := by
    rw [stepRunsDecodedInstruction s _ hl hr hfit hdecode, exec_jmp_of_lt ha, hself]
    rfl
  exact run_of_step_self hstep n

/-- Settles O53: the fetch reads memory as the store left it. -/
theorem storeIsSeenByTheNextFetch : Obligations.StoreIsSeenByTheNextFetch := by
  intro s t a b ha hb h hm hfit
  have hstored : t.memRead (s.reg ⟨a.toNat, ha⟩).toNat = s.reg ⟨b.toNat, hb⟩ := by
    rcases execSt_next h with ⟨hge, _⟩ | ⟨_, hge, _⟩ | ⟨_, _, hge, _⟩ | ⟨_, _, _, rfl⟩
    · omega
    · omega
    · omega
    · exact s.memWrite_memRead_self _ _
  rcases fetch_cases t with ⟨hend, _⟩ | ⟨_, hend, _⟩ | ⟨_, hfetch⟩
  · omega
  · omega
  · exact ⟨_, _, _, hfetch, fun heq => heq ▸ hstored, fun heq => heq ▸ hstored, fun heq => heq ▸ hstored⟩

/-- Writing a register with its own value changes nothing. -/
theorem State.setReg_reg_same (s : State) (r : Reg) : s.setReg r (s.reg r) = s := by
  simp [State.setReg, State.reg]

theorem State.pushAddr_add_one (s : State) : s.pushAddr + 1#8 = s.reg sp :=
  BitVec.sub_add_cancel (s.reg sp) 1#8

theorem State.decSp_reg_sp (s : State) : s.decSp.reg sp = s.pushAddr := s.decSp_reg sp

/-- The increment undoes the decrement (R22). -/
theorem State.decSp_incSp (s : State) : s.decSp.incSp = s := by
  rw [State.incSp_eq, s.decSp_reg_sp, s.pushAddr_add_one]
  calc s.decSp.setReg sp (s.reg sp) = s.setReg sp (s.reg sp) := by
        simp only [State.decSp, State.setReg, Vector.set_set]
    _ = s := s.setReg_reg_same sp

/-- The state after a PUSH that completes under a legal map (R166). -/
def State.pushed (s : State) (r : Reg) : State :=
  (s.decSp.memWrite s.pushAddr.toNat (s.decSp.reg r)).setPc (s.pc + 2)

theorem exec_push_eq_pushed {s : State} (hl : s.cfg.opcodeMap.legal = true) {a : Byte} (ha : a.toNat < 8)
    (hm : s.pushAddr.toNat < s.cfg.memSize) : exec (.push a) s = .next (s.pushed ⟨a.toNat, ha⟩) :=
  (exec_push_of_lt ha hl).trans (requireMem_of_lt hm _)

theorem State.pushed_popAddr (s : State) (r : Reg) : (s.pushed r).popAddr = s.pushAddr := s.decSp_reg_sp

/-- The cell on top of the stack holds what the pushed register holds, R7 included: PUSH reads after the decrement. -/
theorem State.pushed_memRead_popAddr (s : State) (r : Reg) :
    (s.pushed r).memRead (s.pushed r).popAddr.toNat = (s.pushed r).reg r := by
  rw [s.pushed_popAddr]
  exact s.decSp.memWrite_memRead_self _ _

/-- Settles O54: POP finds in the cell what the register holds, so its register write changes nothing, and its increment
undoes PUSH's decrement. -/
theorem pushPopRestores : Obligations.PushPopRestores := by
  intro s a hl ha hm
  have hbound : (s.pushed ⟨a.toNat, ha⟩).popAddr.toNat < (s.pushed ⟨a.toNat, ha⟩).cfg.memSize := by
    rw [s.pushed_popAddr]
    exact hm
  have hpop : exec (.pop a) (s.pushed ⟨a.toNat, ha⟩) =
      .next ((s.pushed ⟨a.toNat, ha⟩).incSp.setPc (s.pc + 4)) := by
    rw [exec_pop_of_lt (s := s.pushed _) ha hl, requireMem_of_lt hbound, s.pushed_memRead_popAddr, State.setReg_reg_same]
    rfl
  have hregs : s.decSp.incSp.regs = s.regs := by rw [s.decSp_incSp]
  exact ⟨_, _, exec_push_eq_pushed hl ha hm, hpop, hregs, rfl, rfl, rfl, rfl,
    fun _ hne => s.decSp.memWrite_memRead_ne _ hne⟩

/-- Settles O55: RET's address is the cell CALL wrote, which holds `pc + 2` whole, and RET's increment undoes CALL's
decrement. -/
theorem callReturnResumes : Obligations.CallReturnResumes := by
  intro s t u a ha hm h hcfg hsp hcell
  have hleft : t.reg sp = s.pushAddr ∧ (t.memRead s.pushAddr.toNat).toNat = s.pc + 2 := by
    rcases execCall_next h with ⟨hge, _⟩ | ⟨_, hge, _⟩ | ⟨_, _, hret, rfl⟩
    · exact absurd ha hge.not_gt
    · exact absurd hm hge.not_gt
    · exact ⟨s.decSp_reg_sp, (congrArg BitVec.toNat (s.decSp.memWrite_memRead_self _ _)).trans (toNat_ofNat_of_le hret)⟩
  obtain ⟨htop, hvalue⟩ := hleft
  have haddr : u.reg sp = s.pushAddr := hsp.trans htop
  have hbound : u.popAddr.toNat < u.cfg.memSize := by
    rw [State.popAddr, haddr, hcfg]
    exact hm
  refine ⟨_, requireMem_of_lt hbound _, ?pc, ?stackPointer⟩
  case pc =>
    rw [htop] at hcell
    exact (congrArg BitVec.toNat hcell).trans hvalue
  case stackPointer =>
    calc (u.setPc _).incSp.reg sp = u.reg sp + 1#8 := State.setReg_reg_self _ sp _
      _ = s.reg sp := by rw [haddr, s.pushAddr_add_one]

/-- Settles O56: the equality bit that CMP leaves is the outcome of the comparison. -/
theorem compareDecidesTheBranch : Obligations.CompareDecidesTheBranch := by
  intro s t u a b k ha hb hk h hfl
  have hflag : u.flagE = (s.reg ⟨a.toNat, ha⟩ == s.reg ⟨b.toNat, hb⟩) := by
    rcases execCmp_next h with ⟨hge, _⟩ | ⟨_, hge, _⟩ | ⟨_, _, rfl⟩
    · omega
    · omega
    · exact (State.flagE_eq_of_fl_eq hfl).trans (s.setFlagE_flagE _)
  rw [exec_jeq_of_lt hk, exec_jne_of_lt hk, hflag]
  by_cases heq : s.reg ⟨a.toNat, ha⟩ = s.reg ⟨b.toNat, hb⟩ <;> simp [heq]

end Sys2Proof.Machine
